-- ==== Sys2Proof/Word.lean ====
section
/-! DEFINITION. The value widths of the E20 core (spec/00_scope.md R8, R12). -/

namespace Sys2Proof

/-- `u16`: register contents, memory words and instruction words (R12). -/
abbrev Word := BitVec 16

/-- `u13`: word addresses and the pc (R12). -/
abbrev Addr := BitVec 13

/-- `u3`: a register number (R12). -/
abbrev Reg := BitVec 3

/-- MEM_SIZE, the number of words of memory: 2^13 (R8, R31). -/
abbrev memSize : Nat := 8192

/-- The link register, written by `jal` (R8, R22). -/
abbrev linkReg : Reg := 7#3

end Sys2Proof
end

