-- ==== Sys2Proof/Config.lean ====
section
/-! DEFINITION. What an implementation fixes: the cache configuration and the parameters the source leaves open
(spec/00_scope.md R9, R10), and the one free value, the register draw at reset under REG_RESET = unspecified. -/

namespace Sys2Proof

/-- A cache geometry (R9): size and blocksize count 16-bit words (DESIGN CHOICE of the spec, D16; log 17). -/
structure Geometry where
  size : Nat
  associativity : Nat
  blocksize : Nat
  deriving DecidableEq, Repr

/-- numRows = size / (associativity × blocksize) (R9). -/
def Geometry.numRows (g : Geometry) : Nat := g.size / (g.associativity * g.blocksize)

/-- The cache configuration, a launch argument (R9, R67): an L2 exists only together with an L1. -/
inductive CacheConfig where
  /-- no cache: direct memory access -/
  | none
  /-- one level -/
  | l1 (g1 : Geometry)
  /-- two levels -/
  | l1l2 (g1 g2 : Geometry)
  deriving DecidableEq, Repr

/-- SLTI_COMPARE (R10, R141; D7, log 25). -/
inductive SltiCompare where
  | widened | signed16 | unsigned16
  deriving DecidableEq, Repr

/-- LOAD_VALUE_SOURCE (R10, R79; D14, log 15). -/
inductive LoadValueSource where
  | hierarchy | memory
  deriving DecidableEq, Repr

/-- JR_UNUSED_BITS (R10, R111; D5, log 11). -/
inductive JrUnusedBits where
  | ignore | decodeError
  deriving DecidableEq, Repr

/-- REG_RESET (R10, R42; D10, log 5). -/
inductive RegReset where
  | zero | unspecified
  deriving DecidableEq, Repr

/-- The parameters of R10 that a running core reads. -/
structure Params where
  sltiCompare : SltiCompare
  loadValueSource : LoadValueSource
  jrUnusedBits : JrUnusedBits
  deriving DecidableEq, Repr

/-- The defaults of R10 (DESIGN CHOICE of the spec: D5, D7, D14). -/
def Params.default : Params :=
  { sltiCompare := .widened, loadValueSource := .hierarchy, jrUnusedBits := .ignore }

/-- FREE VALUE (R42, U8; log 5): what registers 1 to 7 hold at reset under REG_RESET = unspecified, one draw per
`seed` and register. It has no body, so nothing can be proved of any one draw. -/
opaque Config.resetDraw (seed : Nat) (r : Reg) : Word

end Sys2Proof
end

