-- ==== Sys2Proof/Syntax.lean ====
section
/-! DEFINITION. The thirteen instructions of spec/opcode_table.json, as decoded (spec/30_encoding.md R108, R109). -/

namespace Sys2Proof

/-- One constructor per row of spec/opcode_table.json. Operands stand in the order of the decoder of R109
(destination or stored register first, as the assembler of R114 writes them). Each operand has the width of its
field, so no term is ill-formed: a register is a `u3`, `imm7` the raw 7-bit immediate field (sign-extended by the
meaning, R106), `imm13` the 13-bit target (R107). -/
inductive Instr where
  /-- `add $d, $a, $b` (R130). -/
  | add (d a b : Reg)
  /-- `sub $d, $a, $b` (R131). -/
  | sub (d a b : Reg)
  /-- `or $d, $a, $b` (R132). -/
  | or (d a b : Reg)
  /-- `and $d, $a, $b` (R133). -/
  | and (d a b : Reg)
  /-- `slt $d, $a, $b` (R134). -/
  | slt (d a b : Reg)
  /-- `jr $a` (R158). -/
  | jr (a : Reg)
  /-- `addi $d, $a, imm` (R138). -/
  | addi (d a : Reg) (imm7 : BitVec 7)
  /-- `j target`, and HALT where the target is its own address (R150, R151). -/
  | j (imm13 : Addr)
  /-- `jal target` (R155). -/
  | jal (imm13 : Addr)
  /-- `lw $d, imm($a)` (R172): `d` is regB, `a` the base regA. -/
  | lw (d a : Reg) (imm7 : BitVec 7)
  /-- `sw $s, imm($a)` (R176): `src` is regB, the value stored, `a` the base regA. -/
  | sw (src a : Reg) (imm7 : BitVec 7)
  /-- `jeq $a, $b, imm` (R162): `a` is regA, `b` is regB. -/
  | jeq (a b : Reg) (imm7 : BitVec 7)
  /-- `slti $d, $a, imm` (R140). -/
  | slti (d a : Reg) (imm7 : BitVec 7)
  deriving DecidableEq, Repr

end Sys2Proof
end

