-- ==== Sys2Proof/WellFormed.lean ====
section
/-! DEFINITION. The checks the launch makes (spec/00_scope.md R9, spec/60_exceptions.md R201, R202). An `Instr` has no
check of its own: each operand has exactly the width of its field, so every term is an instruction. -/

namespace Sys2Proof

/-- `n` is a power of two, at least 1. -/
def isPow2 (n : Nat) : Bool := n == 2 ^ Nat.log2 n

/-- A geometry is valid when size divides evenly by associativity × blocksize, and associativity, blocksize and
numRows are powers of two, each at least 1 (R9, R201). -/
def Geometry.valid (g : Geometry) : Bool :=
  g.size % (g.associativity * g.blocksize) == 0 &&
    isPow2 g.associativity && isPow2 g.blocksize && isPow2 g.numRows

/-- A cache configuration is valid when every geometry in it is; there is no constraint between the levels and none
against the memory size (R9, D16). -/
def CacheConfig.valid : CacheConfig → Bool
  | .none => true
  | .l1 g1 => g1.valid
  | .l1l2 g1 g2 => g1.valid && g2.valid

/-- The loader rejects an image of more than 8192 words (R40, R202). -/
def imageFits (image : List Word) : Bool := image.length ≤ memSize

end Sys2Proof
end

