-- ==== Sys2Proof/Machine/State.lean ====
section
/-! DEFINITION. The machine's state as plain data, its value after reset, and the reasons a step can stop
(spec/10_state.md). -/

namespace Sys2Proof.Machine

/-- One slot of a cache row (R33). Tags and recency values are unbounded naturals (D12; log 8). `data` is one word
per block, whatever the blocksize. -/
structure CacheBlock where
  valid : Bool
  tag : Nat
  recency : Nat
  data : Word
  deriving DecidableEq, Repr

/-- One cache level (R32): its geometry (fixed for the run), its recency counter, and numRows rows of
`associativity` slots. -/
structure Cache where
  geom : Geometry
  counter : Nat
  rows : List (List CacheBlock)
  deriving DecidableEq, Repr

/-- The cache levels a core has (R67): an L2 exists only together with an L1. -/
inductive Hierarchy where
  | none
  | l1 (c1 : Cache)
  | l1l2 (c1 c2 : Cache)
  deriving DecidableEq, Repr

/-- levelName (R37). -/
inductive LevelName where
  | l1 | l2
  deriving DecidableEq, Repr

/-- statusKind (R37). -/
inductive StatusKind where
  | hit | miss | write
  deriving DecidableEq, Repr

/-- One record of the event log (R37, R68). -/
structure CacheEvent where
  levelName : LevelName
  statusKind : StatusKind
  programCounterAtAccess : Addr
  effectiveAddress : Addr
  rowIndex : Nat
  deriving DecidableEq, Repr

/-- The run status (R36). The only error a running core raises is DecodeError (R200), so `faulted` is
`Faulted(DecodeError, pc, word)`. -/
inductive RunStatus where
  | running
  | halted
  | faulted (pc : Addr) (word : Word)
  deriving DecidableEq, Repr

/-- Memory: a list of (word address, word), strictly rising addresses below 8192, no word 0 listed; an address that
is not listed reads 0, the spec's reset contents outside the image (R31, R40). The addressable unit is the 16-bit
word and no byte order exists (R46, R47; log 1). -/
abbrev Memory := List (Nat × Word)

/-- Everything the spec gives the machine (R20 to R39), with the parameters of R10 beside it (log 2). -/
structure State where
  /-- The eight registers; `regs[0]` is hardwired (`State.readReg`, `State.writeReg`). -/
  regs : Vector Word 8
  pc : Addr
  mem : Memory
  hier : Hierarchy
  /-- The event log, oldest first (R37). -/
  events : List CacheEvent
  status : RunStatus
  /-- Fixed for the run: no step changes it (R39; log 2). -/
  params : Params
  deriving DecidableEq, Repr

/-- Why a step stops the machine. Both say that the state has no step (R36, R231); neither is raised by an
instruction. Safe: the spec gives such a state no step at all (log 21). -/
inductive Fault where
  /-- raised by `step` alone: the run status is Halted (R152); safe -/
  | coreHalted
  /-- raised by `step` alone: the run status is Faulted(DecodeError, pc, word) (R203); safe -/
  | coreFaulted (pc : Addr) (word : Word)
  deriving DecidableEq, Repr

/-- Why an instruction has no meaning. -/
inductive Refusal where
  /-- raised by an arm of `exec` for an instruction without a meaning: no arm does so; safe -/
  | notModelled (mnemonic : String)
  deriving DecidableEq, Repr

/-- The machine right after reset (R40 to R44), for the launch with no cache (log 3), the empty image (log 4) and
every parameter at its default (R10; logs 2, 5). -/
def State.reset : State :=
  { regs := Vector.replicate 8 0#16
    pc := 0#13
    mem := []
    hier := .none
    events := []
    status := .running
    params := Params.default }

end Sys2Proof.Machine
end

