-- ==== Sys2Proof/Machine/Operands.lean ====
section
/-! DEFINITION. Operand assembly: sign extension, wrapping, effective addresses and targets (spec/00_scope.md R13, R14;
spec/42_load_store.md R170). -/

namespace Sys2Proof.Machine

/-- `sext7(imm)`: imm - 128 when imm ≥ 64, imm otherwise (R13, R106). -/
def sext7 (imm7 : BitVec 7) : Int :=
  if 64 ≤ imm7.toNat then (imm7.toNat : Int) - 128 else (imm7.toNat : Int)

/-- `wrap16(a) = a mod 65536`, the Euclidean remainder (R14; D8, log 13). -/
def wrap16 (a : Int) : Word := BitVec.ofInt 16 a

/-- `wrap13(a) = a mod 8192`, the Euclidean remainder (R14; D8, log 13). -/
def wrap13 (a : Int) : Addr := BitVec.ofInt 13 a

/-- `wrap13(pc + 1)` (R26, R231). -/
def nextPc (pc : Addr) : Addr := wrap13 (pc.toNat + 1)

/-- The only addressing mode: `ea = wrap13(x[a] + sext7(imm7))` (R170). -/
def effectiveAddress (base : Word) (imm7 : BitVec 7) : Addr := wrap13 (base.toNat + sext7 imm7)

/-- The taken target of `jeq`: `wrap13(pc + 1 + sext7(imm7))` (R162). -/
def branchTarget (pc : Addr) (imm7 : BitVec 7) : Addr := wrap13 (pc.toNat + 1 + sext7 imm7)

/-- The target of `jr`: `wrap13(x[a]) = x[a][12:0]` (R158). -/
def registerTarget (v : Word) : Addr := wrap13 v.toNat

/-- An address as a register value, zero-extended (R155: a u16 value in [0, 8191]). -/
def addrToWord (a : Addr) : Word := a.setWidth 16

end Sys2Proof.Machine
end

