-- ==== Sys2Proof/Machine/Flags.lean ====
section
/-! DEFINITION. The machine has no flags (spec/10_state.md R28): a comparison yields the word 0 or 1. -/

namespace Sys2Proof.Machine

/-- A truth value as the register value 0 or 1 (R28, R134, R140). -/
def boolToWord (b : Bool) : Word := if b then 1#16 else 0#16

/-- `<u`: both values unsigned (R134). -/
def lessThanUnsigned (x y : Word) : Bool := x.toNat < y.toNat

/-- `lessThanImm(r, s)` under each SLTI_COMPARE (R141; D7, log 25). -/
def lessThanImm (mode : SltiCompare) (r : Word) (s : Int) : Bool :=
  match mode with
  | .widened => (r.toNat : Int) < s
  | .signed16 => r.toInt < s
  | .unsigned16 => lessThanUnsigned r (wrap16 s)

end Sys2Proof.Machine
end

