-- ==== Sys2Proof/Decode.lean ====
section
/-! DEFINITION. The decoder, total on every 16-bit word, and the encoder (spec/30_encoding.md R100 to R111).
The layout, the opcode numbers and the function codes are the spec's passages from general knowledge (PRESUMED, D2,
D3; log 9). -/

namespace Sys2Proof

/-- w[15:13] (R101, R105). -/
def opcodeOf (w : Word) : BitVec 3 := w.extractLsb' 13 3
/-- w[12:10] (R105). -/
def regAOf (w : Word) : Reg := w.extractLsb' 10 3
/-- w[9:7] (R105). -/
def regBOf (w : Word) : Reg := w.extractLsb' 7 3
/-- w[6:4] (R105). -/
def regDstOf (w : Word) : Reg := w.extractLsb' 4 3
/-- w[3:0] (R105). -/
def funcOf (w : Word) : BitVec 4 := w.extractLsb' 0 4
/-- w[6:0] (R105). -/
def imm7Of (w : Word) : BitVec 7 := w.extractLsb' 0 7
/-- w[12:0] (R105). -/
def imm13Of (w : Word) : Addr := w.extractLsb' 0 13
/-- w[9:4], the fields `jr` does not use (R111). -/
def jrUnusedOf (w : Word) : BitVec 6 := w.extractLsb' 4 6

/-- Why a word is no instruction. Both are the one DecodeError of R203. -/
inductive DecodeRefusal where
  /-- opcode 000 with a function code outside 0000 to 0100 and 1000 (R110; D4, log 10) -/
  | unassignedFunc
  /-- a `jr` with nonzero bits [9:4] under JR_UNUSED_BITS = decode_error (R111; D5, log 11) -/
  | jrUnusedBitsSet
  deriving DecidableEq, Repr

/-- The nested sub-selector of opcode 000 (R109). -/
def decodeRRR (m : JrUnusedBits) (w : Word) : Except DecodeRefusal Instr :=
  match (funcOf w).toNat with
  | 0 => .ok (.add (regDstOf w) (regAOf w) (regBOf w))
  | 1 => .ok (.sub (regDstOf w) (regAOf w) (regBOf w))
  | 2 => .ok (.or (regDstOf w) (regAOf w) (regBOf w))
  | 3 => .ok (.and (regDstOf w) (regAOf w) (regBOf w))
  | 4 => .ok (.slt (regDstOf w) (regAOf w) (regBOf w))
  | 8 =>
    if m = .decodeError ∧ jrUnusedOf w ≠ 0 then .error .jrUnusedBitsSet
    else .ok (.jr (regAOf w))
  | _ => .error .unassignedFunc

/-- The decoder of R109, total on every word: a switch over the 3-bit opcode. -/
def decode (m : JrUnusedBits) (w : Word) : Except DecodeRefusal Instr :=
  match (opcodeOf w).toNat with
  | 0 => decodeRRR m w
  | 1 => .ok (.addi (regBOf w) (regAOf w) (imm7Of w))
  | 2 => .ok (.j (imm13Of w))
  | 3 => .ok (.jal (imm13Of w))
  | 4 => .ok (.lw (regBOf w) (regAOf w) (imm7Of w))
  | 5 => .ok (.sw (regBOf w) (regAOf w) (imm7Of w))
  | 6 => .ok (.jeq (regAOf w) (regBOf w) (imm7Of w))
  | _ => .ok (.slti (regBOf w) (regAOf w) (imm7Of w))

/-- Shape RRR with opcode 000 (R102). -/
def encodeRRR (regA regB regDst : Reg) (func : BitVec 4) : Word :=
  0b000#3 ++ regA ++ regB ++ regDst ++ func

/-- Shape RRI (R103). -/
def encodeRRI (opcode : BitVec 3) (regA regB : Reg) (imm7 : BitVec 7) : Word :=
  opcode ++ regA ++ regB ++ imm7

/-- Shape I13 (R104). -/
def encodeI13 (opcode : BitVec 3) (imm13 : Addr) : Word := opcode ++ imm13

/-- The word of an instruction (R102 to R104, R108, R114). `jr`'s unused bits are written as zeros, as the
assembler of R114 does. -/
def encode : Instr → Word
  | .add d a b => encodeRRR a b d 0b0000#4
  | .sub d a b => encodeRRR a b d 0b0001#4
  | .or d a b => encodeRRR a b d 0b0010#4
  | .and d a b => encodeRRR a b d 0b0011#4
  | .slt d a b => encodeRRR a b d 0b0100#4
  | .jr a => encodeRRR a 0#3 0#3 0b1000#4
  | .addi d a imm7 => encodeRRI 0b001#3 a d imm7
  | .j imm13 => encodeI13 0b010#3 imm13
  | .jal imm13 => encodeI13 0b011#3 imm13
  | .lw d a imm7 => encodeRRI 0b100#3 a d imm7
  | .sw src a imm7 => encodeRRI 0b101#3 a src imm7
  | .jeq a b imm7 => encodeRRI 0b110#3 a b imm7
  | .slti d a imm7 => encodeRRI 0b111#3 a d imm7

/-- The instruction the decoder reads from the bits `w` of an opcode-table row, under the default
JR_UNUSED_BITS = ignore. Every instruction is one 16-bit word (R100), so no bit stands above bit 15. -/
def decodeTableWord (nbits w : Nat) : Option Instr :=
  match decode .ignore (BitVec.ofNat 16 (w % 2 ^ nbits)) with
  | .ok i => some i
  | .error _ => none

end Sys2Proof
end

