-- ==== Sys2Proof/Machine/Ops.lean ====
section
/-! DEFINITION. The named operations over registers, memory, the pc, the event log and the run status
(spec/00_scope.md R15 to R17). -/

namespace Sys2Proof.Machine

/-- `x[i]`: register 0 reads 0 (R15, R21). -/
def State.readReg (s : State) (r : Reg) : Word :=
  if r = 0#3 then 0#16 else s.regs[r.toNat]'r.isLt

/-- `x[i] <- v`: a write to register 0 does nothing, and is no error (R15, R21, R136). -/
def State.writeReg (s : State) (r : Reg) (v : Word) : State :=
  { s with regs := if r = 0#3 then s.regs else s.regs.set r.toNat v r.isLt }

/-- The word at an address; an address that is not listed reads 0, the reset contents (R40). -/
def Memory.read : Memory → Nat → Word
  | [], _ => 0#16
  | (k, v) :: m, a => if k = a then v else Memory.read m a

/-- Forget the word at an address, so that it reads 0. -/
def Memory.erase : Memory → Nat → Memory
  | [], _ => []
  | (k, v) :: m, a => if k = a then m else (k, v) :: Memory.erase m a

/-- List the word `v` at an address, in its place in the rising order. -/
def Memory.insert : Memory → Nat → Word → Memory
  | [], a, v => [(a, v)]
  | (k, u) :: m, a, v =>
    if a < k then (a, v) :: (k, u) :: m
    else if a = k then (a, v) :: m
    else (k, u) :: Memory.insert m a v

/-- Set the word at an address, keeping the canonical form: the word 0 is not listed. -/
def Memory.write (m : Memory) (a : Nat) (v : Word) : Memory :=
  if v = 0#16 then m.erase a else m.insert a v

/-- The canonical form: addresses strictly rising and below 8192, no word 0 listed. -/
abbrev Memory.wf (m : Memory) : Prop :=
  m.Pairwise (fun x y => x.1 < y.1) ∧ ∀ c ∈ m, c.1 < memSize ∧ c.2 ≠ 0#16

/-- `MemRead(a, 1)` (R16, R50). -/
def State.readMem (s : State) (a : Addr) : Word := s.mem.read a.toNat

/-- `MemWrite(a, 1, v)` (R16, R49). -/
def State.writeMem (s : State) (a : Addr) (v : Word) : State :=
  { s with mem := s.mem.write a.toNat v }

/-- `pc <- t` (R15). -/
def State.setPc (s : State) (t : Addr) : State := { s with pc := t }

/-- The fall-through: `pc <- wrap13(pc + 1)` (R17, R231). -/
def State.advance (s : State) : State := s.setPc (nextPc s.pc)

/-- Write an instruction's result and fall through. -/
def State.retire (s : State) (d : Reg) (v : Word) : State := (s.writeReg d v).advance

/-- Append to the event log (R37, R68). -/
def State.emit (s : State) (es : List CacheEvent) : State := { s with events := s.events ++ es }

/-- `halt`: the run status becomes Halted and nothing else changes (R152). -/
def State.halt (s : State) : State := { s with status := .halted }

/-- TAKING THE ONE EXCEPTION, `raise DecodeError(pc, word)`: the run status records the pc and the word, nothing else
changes and the pc is not advanced (R203, R208). There is no return from it: the status is final (R36, R209). -/
def State.raiseDecodeError (s : State) (word : Word) : State :=
  { s with status := .faulted s.pc word }

/-- FETCH: `MemRead(pc, 1)`, past the caches and with no event (R87, R231; D17, log 18). -/
def State.fetch (s : State) : Word := s.readMem s.pc

/-- DECODE, under the core's JR_UNUSED_BITS (R109, R111). -/
def State.decodeFetched (s : State) : Except DecodeRefusal Instr :=
  decode s.params.jrUnusedBits s.fetch

end Sys2Proof.Machine
end

