-- ==== Sys2Proof/Machine/Alu.lean ====
section
/-! DEFINITION. The arithmetic, logic and compare instructions (spec/40_alu.md). Each reads its sources, writes its
destination and falls through (R137, R231); none touches memory, the caches or the event log (R135). -/

namespace Sys2Proof.Machine

/-- `add` (R130): the sum mod 2^16. -/
def execAdd (d a b : Reg) (s : State) : Host.Outcome State Fault Refusal :=
  .next (s.retire d (s.readReg a + s.readReg b))

/-- `sub` (R131): the difference mod 2^16. -/
def execSub (d a b : Reg) (s : State) : Host.Outcome State Fault Refusal :=
  .next (s.retire d (s.readReg a - s.readReg b))

/-- `or` (R132), bitwise over all 16 bits. -/
def execOr (d a b : Reg) (s : State) : Host.Outcome State Fault Refusal :=
  .next (s.retire d (s.readReg a ||| s.readReg b))

/-- `and` (R133), bitwise over all 16 bits. -/
def execAnd (d a b : Reg) (s : State) : Host.Outcome State Fault Refusal :=
  .next (s.retire d (s.readReg a &&& s.readReg b))

/-- `slt` (R134): unsigned less-than. -/
def execSlt (d a b : Reg) (s : State) : Host.Outcome State Fault Refusal :=
  .next (s.retire d (boolToWord (lessThanUnsigned (s.readReg a) (s.readReg b))))

/-- `addi` (R138), its immediate sign-extended (R106; D6, log 12). -/
def execAddi (d a : Reg) (imm7 : BitVec 7) (s : State) : Host.Outcome State Fault Refusal :=
  .next (s.retire d (wrap16 ((s.readReg a).toNat + sext7 imm7)))

/-- `slti` (R140), under the core's SLTI_COMPARE (R141). -/
def execSlti (d a : Reg) (imm7 : BitVec 7) (s : State) : Host.Outcome State Fault Refusal :=
  .next (s.retire d (boolToWord (lessThanImm s.params.sltiCompare (s.readReg a) (sext7 imm7))))

end Sys2Proof.Machine
end

