-- ==== Sys2Proof/Machine/Control.lean ====
section
/-! DEFINITION. The control transfer instructions and HALT (spec/41_control.md). Each sets the pc itself (R231). -/

namespace Sys2Proof.Machine

/-- `j` (R150): a target equal to the pc is HALT (R151, R152). -/
def execJ (imm13 : Addr) (s : State) : Host.Outcome State Fault Refusal :=
  if imm13 = s.pc then .next s.halt else .next (s.setPc imm13)

/-- `jal` (R155): the return address in register 7, before the pc is set (R156, R240); never a HALT (R157). -/
def execJal (imm13 : Addr) (s : State) : Host.Outcome State Fault Refusal :=
  .next ((s.writeReg linkReg (addrToWord (nextPc s.pc))).setPc imm13)

/-- `jr` (R158, R159). -/
def execJr (a : Reg) (s : State) : Host.Outcome State Fault Refusal :=
  .next (s.setPc (registerTarget (s.readReg a)))

/-- `jeq` (R162, R163): relative to the instruction after the branch. -/
def execJeq (a b : Reg) (imm7 : BitVec 7) (s : State) : Host.Outcome State Fault Refusal :=
  if s.readReg a = s.readReg b then .next (s.setPc (branchTarget s.pc imm7)) else .next s.advance

end Sys2Proof.Machine
end

