-- ==== Sys2Proof/Machine/Cache.lean ====
section
/-! DEFINITION. The address decomposer, the set-associative cache level and the hierarchy (spec/20_memory.md
R52 to R83). -/

namespace Sys2Proof.Machine

/-- The parts of an address in one level (R52). -/
structure Decomposed where
  tag : Nat
  row : Nat
  offset : Nat
  deriving DecidableEq, Repr

/-- `decompose(address, blocksize, numRows)`, by shifts and masks on the unsigned address (R52). -/
def decompose (a : Addr) (blocksize numRows : Nat) : Decomposed :=
  let offsetBits := Nat.log2 blocksize
  let indexBits := Nat.log2 numRows
  { tag := a.toNat >>> (offsetBits + indexBits)
    row := (a.toNat >>> offsetBits) &&& (numRows - 1)
    offset := a.toNat &&& (blocksize - 1) }

/-- A level decomposes an address with its own geometry (R54). -/
def Cache.decompose (c : Cache) (a : Addr) : Decomposed :=
  Sys2Proof.Machine.decompose a c.geom.blocksize c.geom.numRows

/-- A slot at reset (R43; D11, log 7). -/
def CacheBlock.empty : CacheBlock := { valid := false, tag := 0, recency := 0, data := 0#16 }

/-- The rows of the level; a row past the last has no slots (no address of a well-formed level reaches one, R55;
log 26). -/
def Cache.row (c : Cache) (r : Nat) : List CacheBlock := c.rows.getD r []

/-- Slot `i` of row `r`; a slot past the last reads as an empty one. -/
def Cache.slot (c : Cache) (r i : Nat) : CacheBlock := (c.row r).getD i CacheBlock.empty

/-- Lookup: the least slot that is valid and holds the tag (R57, R61). -/
def findSlot (row : List CacheBlock) (t : Nat) : Option Nat :=
  row.findIdx? (fun b => b.valid && b.tag == t)

/-- The smallest recency value of a row (R59). -/
def minRecency (row : List CacheBlock) : Nat := ((row.map (·.recency)).min?).getD 0

/-- The victim: the least index among the slots of minimal recency (R59). -/
def victimSlot (row : List CacheBlock) : Nat :=
  row.findIdx (fun b => b.recency == minRecency row)

/-- What a hit does to its slot: restamp it, and on a write replace its data (R58). -/
def CacheBlock.touch (b : CacheBlock) (stamp : Nat) (pd : Word) (isWrite : Bool) : CacheBlock :=
  { b with recency := stamp, data := if isWrite then pd else b.data }

/-- What a miss does to its victim: on a read its data field is left unchanged (R60; D13, log 14). -/
def CacheBlock.install (b : CacheBlock) (t stamp : Nat) (pd : Word) (isWrite : Bool) : CacheBlock :=
  { valid := true, tag := t, recency := stamp, data := if isWrite then pd else b.data }

/-- What `access` answers (R55): the level after it, the row, and on a hit the slot's data. On a miss there is no
data: returnedData is not defined and no caller uses it (R60, U2; log 14). -/
structure AccessResult where
  cache : Cache
  row : Nat
  data : Option Word
  deriving DecidableEq, Repr

/-- `access(L, a, pd, isWrite)` in full (R61): the counter first (R56), then lookup, hit or install. -/
def Cache.access (c : Cache) (a : Addr) (pd : Word) (isWrite : Bool) : AccessResult :=
  let d := c.decompose a
  let stamp := c.counter + 1
  let row := c.row d.row
  match findSlot row d.tag with
  | .some i =>
    let b := (row.getD i CacheBlock.empty).touch stamp pd isWrite
    { cache := { c with counter := stamp, rows := c.rows.set d.row (row.set i b) }
      row := d.row, data := some b.data }
  | .none =>
    let i := victimSlot row
    let b := (row.getD i CacheBlock.empty).install d.tag stamp pd isWrite
    { cache := { c with counter := stamp, rows := c.rows.set d.row (row.set i b) }
      row := d.row, data := none }

/-- A read access; its proposedData is unused (R55). -/
def Cache.probe (c : Cache) (a : Addr) : AccessResult := c.access a 0#16 false

/-- A write access: a fill or a write-through install (R55, R76). -/
def Cache.fill (c : Cache) (a : Addr) (v : Word) : AccessResult := c.access a v true

/-- The record `emit(level, status, row)` appends for the access at `a` of the instruction at `pc` (R68; D18,
log 19). -/
def cacheEvent (pc a : Addr) (level : LevelName) (status : StatusKind) (row : Nat) : CacheEvent :=
  { levelName := level, statusKind := status, programCounterAtAccess := pc, effectiveAddress := a, rowIndex := row }

/-- What the hierarchy answers: itself after the access, the events in order, and the value. -/
structure HierResult where
  hier : Hierarchy
  events : List CacheEvent
  value : Word
  deriving DecidableEq, Repr

/-- What L2 answers to a load that missed in L1. -/
structure LevelResult where
  cache : Cache
  events : List CacheEvent
  value : Word
  deriving DecidableEq, Repr

/-- The L2 part of a load that missed in L1 (R70, R72), `m` being the backing memory's word at `a`. -/
def loadFromL2 (c2 : Cache) (pc a : Addr) (m : Word) : LevelResult :=
  let p := c2.probe a
  match p.data with
  | .some d => { cache := p.cache, events := [cacheEvent pc a .l2 .hit p.row], value := d }
  | .none =>
    let f := p.cache.fill a m
    { cache := f.cache
      events := [cacheEvent pc a .l2 .miss p.row, cacheEvent pc a .l2 .write f.row]
      value := m }

/-- `HierLoad(a)` (R69, R70) for the instruction at `pc`, `m` being the backing memory's word at `a`, which no load
changes. -/
def Hierarchy.load (h : Hierarchy) (pc a : Addr) (m : Word) : HierResult :=
  match h with
  | .none => { hier := .none, events := [], value := m }
  | .l1 c1 =>
    let p := c1.probe a
    match p.data with
    | .some d => { hier := .l1 p.cache, events := [cacheEvent pc a .l1 .hit p.row], value := d }
    | .none =>
      let f := p.cache.fill a m
      { hier := .l1 f.cache
        events := [cacheEvent pc a .l1 .miss p.row, cacheEvent pc a .l1 .write f.row]
        value := m }
  | .l1l2 c1 c2 =>
    let p := c1.probe a
    match p.data with
    | .some d => { hier := .l1l2 p.cache c2, events := [cacheEvent pc a .l1 .hit p.row], value := d }
    | .none =>
      let q := loadFromL2 c2 pc a m
      let f := p.cache.fill a q.value
      { hier := .l1l2 f.cache q.cache
        events := cacheEvent pc a .l1 .miss p.row :: q.events ++ [cacheEvent pc a .l1 .write f.row]
        value := q.value }

/-- The cache side of `HierStore(a, v)` (R69, R75, R76): one write access per level, L1 first. -/
def Hierarchy.store (h : Hierarchy) (pc a : Addr) (v : Word) : HierResult :=
  match h with
  | .none => { hier := .none, events := [], value := v }
  | .l1 c1 =>
    let f := c1.fill a v
    { hier := .l1 f.cache, events := [cacheEvent pc a .l1 .write f.row], value := v }
  | .l1l2 c1 c2 =>
    let f1 := c1.fill a v
    let f2 := c2.fill a v
    { hier := .l1l2 f1.cache f2.cache
      events := [cacheEvent pc a .l1 .write f1.row, cacheEvent pc a .l2 .write f2.row]
      value := v }

/-- `HierLoad(a)` on the whole state: the value and the events come from the hierarchy, memory is not written (R70,
R174). -/
def State.hierLoad (s : State) (a : Addr) : HierResult := s.hier.load s.pc a (s.readMem a)

/-- Keep the hierarchy and the events of an access. -/
def State.afterHier (s : State) (r : HierResult) : State := { s.emit r.events with hier := r.hier }

/-- `HierStore(a, v)`: the memory write always first, then L1, then L2 (R75, R240). -/
def State.hierStore (s : State) (a : Addr) (v : Word) : State :=
  let s1 := s.writeMem a v
  s1.afterHier (s1.hier.store s1.pc a v)

/-- The value `lw` writes, by LOAD_VALUE_SOURCE: the hierarchy's, or the memory word read when HierLoad starts
(R79; D14, log 15). -/
def loadValue (source : LoadValueSource) (fromHierarchy fromMemory : Word) : Word :=
  match source with
  | .hierarchy => fromHierarchy
  | .memory => fromMemory

end Sys2Proof.Machine
end

