-- ==== Sys2Proof/Machine/LoadStore.lean ====
section
/-! DEFINITION. `lw` and `sw` (spec/42_load_store.md). -/

namespace Sys2Proof.Machine

/-- `lw` (R172): HierLoad runs in full whatever the destination (R173) and whatever the LOAD_VALUE_SOURCE (R79); the
register is written last (R240). -/
def execLw (d a : Reg) (imm7 : BitVec 7) (s : State) : Host.Outcome State Fault Refusal :=
  let ea := effectiveAddress (s.readReg a) imm7
  let r := s.hierLoad ea
  .next ((s.afterHier r).retire d (loadValue s.params.loadValueSource r.value (s.readMem ea)))

/-- `sw` (R176): the register `src` to the effective address, through the hierarchy. -/
def execSw (src a : Reg) (imm7 : BitVec 7) (s : State) : Host.Outcome State Fault Refusal :=
  .next (s.hierStore (effectiveAddress (s.readReg a) imm7) (s.readReg src)).advance

end Sys2Proof.Machine
end

