-- ==== Sys2Proof/Machine/Dispatch.lean ====
section
/-! DEFINITION. One instruction's meaning, by its constructor (spec/30_encoding.md R108). -/

namespace Sys2Proof.Machine

def exec (i : Instr) (s : State) : Host.Outcome State Fault Refusal :=
  match i with
  | .add d a b => Sys2Proof.Machine.execAdd d a b s
  | .sub d a b => Sys2Proof.Machine.execSub d a b s
  | .or d a b => Sys2Proof.Machine.execOr d a b s
  | .and d a b => Sys2Proof.Machine.execAnd d a b s
  | .slt d a b => Sys2Proof.Machine.execSlt d a b s
  | .jr a => Sys2Proof.Machine.execJr a s
  | .addi d a imm7 => Sys2Proof.Machine.execAddi d a imm7 s
  | .j imm13 => Sys2Proof.Machine.execJ imm13 s
  | .jal imm13 => Sys2Proof.Machine.execJal imm13 s
  | .lw d a imm7 => Sys2Proof.Machine.execLw d a imm7 s
  | .sw src a imm7 => Sys2Proof.Machine.execSw src a imm7 s
  | .jeq a b imm7 => Sys2Proof.Machine.execJeq a b imm7 s
  | .slti d a imm7 => Sys2Proof.Machine.execSlti d a imm7 s

end Sys2Proof.Machine
end

