-- ==== Sys2Proof/Machine/Step.lean ====
section
/-! DEFINITION. One step of the core (spec/70_reset_and_hazards.md R231), and where a program's word is placed. -/

namespace Sys2Proof.Machine

/-- FETCH, DECODE, EXECUTE (R231). A word that is no instruction takes DecodeError (R203). A state whose status is
Halted or Faulted has no step: it answers a fault of its own name (R36; log 21). The pc's advance stands in each
instruction's meaning. -/
def step (s : State) : Host.Outcome State Fault Refusal :=
  match s.status with
  | .halted => .fault .coreHalted
  | .faulted pc word => .fault (.coreFaulted pc word)
  | .running =>
    match s.decodeFetched with
    | .ok i => exec i s
    | .error _ => .next (s.raiseDecodeError s.fetch)

/-- The word `w` placed at the pc, where the next step of a running core fetches it (R231; log 4). Every instruction
is one 16-bit word (R100), so no bit stands above bit 15. -/
def State.withFetchWord (s : State) (nbits w : Nat) : State :=
  s.writeMem s.pc (BitVec.ofNat 16 (w % 2 ^ nbits))

end Sys2Proof.Machine
end

