-- ==== Sys2Proof/Machine/Launch.lean ====
section
/-! DEFINITION. The launch: from a cache configuration, the parameters and an image to the reset state
(spec/70_reset_and_hazards.md R230, spec/10_state.md R40 to R44). -/

namespace Sys2Proof.Machine

/-- A level at reset: every slot empty, the counter 0 (R43; D11, log 7). -/
def Cache.empty (g : Geometry) : Cache :=
  { geom := g
    counter := 0
    rows := List.replicate g.numRows (List.replicate g.associativity CacheBlock.empty) }

/-- The hierarchy at reset (R43, R67). -/
def Hierarchy.empty : CacheConfig → Hierarchy
  | .none => .none
  | .l1 g1 => .l1 (Cache.empty g1)
  | .l1l2 g1 g2 => .l1l2 (Cache.empty g1) (Cache.empty g2)

/-- The cache configuration a hierarchy was built with (R9). -/
def Hierarchy.config : Hierarchy → CacheConfig
  | .none => .none
  | .l1 c1 => .l1 c1.geom
  | .l1l2 c1 c2 => .l1l2 c1.geom c2.geom

/-- The words of an image at consecutive addresses from `base`, in canonical form (R40). -/
def Memory.ofImage (base : Nat) : List Word → Memory
  | [] => []
  | v :: image =>
    if v = 0#16 then Memory.ofImage (base + 1) image
    else (base, v) :: Memory.ofImage (base + 1) image

/-- Registers 1 to 7 at reset: 0, or a free draw each (R42; D10, log 5). -/
def resetReg (mode : RegReset) (seed : Nat) (r : Reg) : Word :=
  match mode with
  | .zero => 0#16
  | .unspecified => if r = 0#3 then 0#16 else Config.resetDraw seed r

/-- The register file at reset (R42). -/
def resetRegs (mode : RegReset) (seed : Nat) : Vector Word 8 :=
  Vector.ofFn (fun i => resetReg mode seed (BitVec.ofNat 3 i.val))

/-- The errors before the run (R200); DecodeError, the third kind, is a run status. -/
inductive LaunchError where
  /-- an invalid cache geometry (R201) -/
  | configurationError
  /-- an image longer than the memory (R202) -/
  | imageError
  deriving DecidableEq, Repr

/-- The launch, in the order of R230: the configuration is checked first, then the image, then the reset state of R40
to R44 is built. -/
def launch (config : CacheConfig) (params : Params) (regReset : RegReset) (seed : Nat) (image : List Word) :
    Except LaunchError State :=
  if config.valid = false then .error .configurationError
  else if imageFits image = false then .error .imageError
  else .ok
    { regs := resetRegs regReset seed
      pc := 0#13
      mem := Memory.ofImage 0 image
      hier := Hierarchy.empty config
      events := []
      status := .running
      params := params }

end Sys2Proof.Machine
end

