-- ==== Sys2Proof/Safety.lean ====
section
/-! DEFINITION. The terms claims use: the ways a run ends, what an instruction may write, the invariants of the state
and of the caches, and the cache-free view of a state. -/

namespace Sys2Proof

/-- The validity of a geometry in the words of R9: size evenly divisible by associativity × blocksize, and
associativity, blocksize and numRows each a power of two. -/
def Geometry.MeetsR9 (g : Geometry) : Prop :=
  g.size % (g.associativity * g.blocksize) = 0 ∧ (∃ k, g.associativity = 2 ^ k) ∧ (∃ k, g.blocksize = 2 ^ k) ∧
    ∃ k, g.size / (g.associativity * g.blocksize) = 2 ^ k

/-- Every geometry of a configuration is valid in the words of R9. -/
def CacheConfig.MeetsR9 : CacheConfig → Prop
  | .none => True
  | .l1 g1 => g1.MeetsR9
  | .l1l2 g1 g2 => g1.MeetsR9 ∧ g2.MeetsR9

/-- Every configured level has blocksize 1 (R80). -/
def CacheConfig.UnitBlocks : CacheConfig → Prop
  | .none => True
  | .l1 g1 => g1.blocksize = 1
  | .l1l2 g1 g2 => g1.blocksize = 1 ∧ g2.blocksize = 1

end Sys2Proof

namespace Sys2Proof.Machine

/-- A successful end (R235). -/
def State.EndedWell (s : State) : Prop := s.status = .halted

/-- A failed end: the final state is never a success (R203, R235). -/
def State.EndedBadly (s : State) : Prop := ∃ pc word, s.status = .faulted pc word

/-- The register an instruction writes, if it writes one (R23, R155). -/
def destination : Instr → Option Reg
  | .add d _ _ => some d
  | .sub d _ _ => some d
  | .or d _ _ => some d
  | .and d _ _ => some d
  | .slt d _ _ => some d
  | .jr _ => none
  | .addi d _ _ => some d
  | .j _ => none
  | .jal _ => some linkReg
  | .lw d _ _ => some d
  | .sw _ _ _ => none
  | .jeq _ _ _ => none
  | .slti d _ _ => some d

/-- The instructions that set the pc themselves (R26, R231). -/
def setsPc : Instr → Bool
  | .add _ _ _ => false
  | .sub _ _ _ => false
  | .or _ _ _ => false
  | .and _ _ _ => false
  | .slt _ _ _ => false
  | .jr _ => true
  | .addi _ _ _ => false
  | .j _ => true
  | .jal _ => true
  | .lw _ _ _ => false
  | .sw _ _ _ => false
  | .jeq _ _ _ => true
  | .slti _ _ _ => false

/-- The instructions that reach the cache hierarchy (R87). -/
def reachesHierarchy : Instr → Bool
  | .add _ _ _ => false
  | .sub _ _ _ => false
  | .or _ _ _ => false
  | .and _ _ _ => false
  | .slt _ _ _ => false
  | .jr _ => false
  | .addi _ _ _ => false
  | .j _ => false
  | .jal _ => false
  | .lw _ _ _ => true
  | .sw _ _ _ => true
  | .jeq _ _ _ => false
  | .slti _ _ _ => false

/-- The arithmetic, logic and compare instructions of spec/40_alu.md (R135). -/
def isAlu : Instr → Bool
  | .add _ _ _ => true
  | .sub _ _ _ => true
  | .or _ _ _ => true
  | .and _ _ _ => true
  | .slt _ _ _ => true
  | .jr _ => false
  | .addi _ _ _ => true
  | .j _ => false
  | .jal _ => false
  | .lw _ _ _ => false
  | .sw _ _ _ => false
  | .jeq _ _ _ => false
  | .slti _ _ _ => true

/-- Every register reads as before. -/
def KeepsRegisters (s t : State) : Prop := ∀ r, t.readReg r = s.readReg r

/-- Every register but `d` reads as before, and register 0 reads 0 whatever `d` is (R21). -/
def KeepsRegistersBut (d : Reg) (s t : State) : Prop :=
  (∀ r, r ≠ d → t.readReg r = s.readReg r) ∧ t.readReg 0#3 = 0#16

/-- Every word of memory reads as before. -/
def KeepsMemory (s t : State) : Prop := ∀ a, t.readMem a = s.readMem a

/-- No cache slot, counter, geometry or event changed. -/
def KeepsCaches (s t : State) : Prop := t.hier = s.hier ∧ t.events = s.events

/-- The run status and the parameters are as before. -/
def KeepsControl (s t : State) : Prop := t.status = s.status ∧ t.params = s.params

/-- The pc fell through to `wrap13(pc + 1)` (R231). -/
def FallsThrough (s t : State) : Prop := t.pc.toNat = (s.pc.toNat + 1) % 8192

/-- What an instruction that only computes a register may do: write `d`, fall through, and leave every other register,
memory, the caches, the event log, the run status and the parameters alone (R135). -/
def OnlyRegister (d : Reg) (s t : State) : Prop :=
  KeepsRegistersBut d s t ∧ FallsThrough s t ∧ KeepsMemory s t ∧ KeepsCaches s t ∧ KeepsControl s t

/-- What a control transfer that links nothing may do: set the pc. -/
def OnlyPc (s t : State) : Prop :=
  KeepsRegisters s t ∧ KeepsMemory s t ∧ KeepsCaches s t ∧ KeepsControl s t

/-- The levels and kinds of a sequence of events (R77). -/
def kinds (es : List CacheEvent) : List (LevelName × StatusKind) :=
  es.map (fun e => (e.levelName, e.statusKind))

/-- An event of the access at `a` by the instruction at `pc`, in the row its level gives that address (R68, R77). -/
def Hierarchy.Describes (h : Hierarchy) (pc a : Addr) (e : CacheEvent) : Prop :=
  e.programCounterAtAccess = pc ∧ e.effectiveAddress = a ∧
    match h, e.levelName with
    | .none, _ => False
    | .l1 c1, .l1 => e.rowIndex = (c1.decompose a).row
    | .l1 _, .l2 => False
    | .l1l2 c1 _, .l1 => e.rowIndex = (c1.decompose a).row
    | .l1l2 _ c2, .l2 => e.rowIndex = (c2.decompose a).row

/-- The same levels are configured in both, and each is related to its counterpart. -/
def Hierarchy.Rel (R : Cache → Cache → Prop) : Hierarchy → Hierarchy → Prop
  | .none, .none => True
  | .l1 c1, .l1 c1' => R c1 c1'
  | .l1l2 c1 c2, .l1l2 c1' c2' => R c1 c1' ∧ R c2 c2'
  | _, _ => False

/-- No slot of the row an address maps to is valid with its tag: an access there misses (R57). -/
def Cache.Lacks (c : Cache) (a : Addr) : Prop :=
  ∀ i, (c.slot (c.decompose a).row i).valid = true → (c.slot (c.decompose a).row i).tag ≠ (c.decompose a).tag

/-- Every slot but slot `i` of row `r` is the same in both. -/
def SameSlotsBut (r i : Nat) (c c' : Cache) : Prop := ∀ r' i', ¬ (r' = r ∧ i' = i) → c'.slot r' i' = c.slot r' i'

/-- A level has the rows and slots its valid geometry gives it (R9, R32). -/
def Cache.Shape (c : Cache) : Prop :=
  c.geom.valid = true ∧ c.rows.length = c.geom.numRows ∧ ∀ row ∈ c.rows, row.length = c.geom.associativity

/-- Recency (R63): a valid slot's stamp lies in [1, counter], an invalid slot's is 0, and no two valid slots of the
level carry the same one. -/
def Cache.Stamped (c : Cache) : Prop :=
  (∀ r i, (c.slot r i).valid = true → 1 ≤ (c.slot r i).recency ∧ (c.slot r i).recency ≤ c.counter) ∧
  (∀ r i, (c.slot r i).valid = false → (c.slot r i).recency = 0) ∧
  ∀ r i r' i', (c.slot r i).valid = true → (c.slot r' i').valid = true →
    (c.slot r i).recency = (c.slot r' i').recency → r = r' ∧ i = i'

/-- A row never holds two valid slots with the same tag (R64). -/
def Cache.TagsUnique (c : Cache) : Prop :=
  ∀ r i i', (c.slot r i).valid = true → (c.slot r i').valid = true →
    (c.slot r i).tag = (c.slot r i').tag → i = i'

/-- A tag never exceeds 2^(13 - offsetBits - indexBits) - 1 (R33). -/
def Cache.TagsBounded (c : Cache) : Prop :=
  ∀ r i, (c.slot r i).tag < 2 ^ (13 - (Nat.log2 c.geom.blocksize + Nat.log2 c.geom.numRows))

/-- The invariant of one level. -/
def Cache.Wf (c : Cache) : Prop := c.Shape ∧ c.Stamped ∧ c.TagsUnique ∧ c.TagsBounded

/-- Something holds of every configured level. -/
def Hierarchy.All (P : Cache → Prop) : Hierarchy → Prop
  | .none => True
  | .l1 c1 => P c1
  | .l1l2 c1 c2 => P c1 ∧ P c2

/-- A recorded event names a configured level and a row of it (R37). -/
def Hierarchy.Admits (h : Hierarchy) (e : CacheEvent) : Prop :=
  match h, e.levelName with
  | .none, _ => False
  | .l1 c1, .l1 => e.rowIndex < c1.geom.numRows
  | .l1 _, .l2 => False
  | .l1l2 c1 _, .l1 => e.rowIndex < c1.geom.numRows
  | .l1l2 _ c2, .l2 => e.rowIndex < c2.geom.numRows

/-- The invariant of the machine: memory in canonical form, the stored register 0 holds 0 (R21), every level is well
formed (R32, R33, R63, R64), and every event of the log names a row of a configured level (R37). -/
def State.Inv (s : State) : Prop :=
  s.mem.wf ∧ s.regs[0] = 0#16 ∧ s.hier.All Cache.Wf ∧ ∀ e ∈ s.events, s.hier.Admits e

/-- Every valid slot of a level of blocksize 1 holds the memory word it stands for (R80). -/
def Cache.Mirrors (c : Cache) (m : Memory) : Prop :=
  c.geom.blocksize = 1 ∧ ∀ r i, (c.slot r i).valid = true →
    (c.slot r i).data = m.read ((c.slot r i).tag * c.geom.numRows + r)

/-- The caches are transparent (R80): the machine's invariant, and every configured level has blocksize 1 and mirrors
memory. -/
def State.Transparent (s : State) : Prop := s.Inv ∧ s.hier.All (fun c => c.Mirrors s.mem)

/-- The same core with no cache and an empty event log: what a program can read of a state (R34). -/
def State.withoutCaches (s : State) : State := { s with hier := .none, events := [] }

end Sys2Proof.Machine
end

