-- ==== Sys2Proof/Certificates/Slice0/Obligations.lean ====
section
/-! DEFINITION. The statements for the provers. `Rn` is a rule of spec/, `Dn` one of the spec's own decisions
(spec/92_eei_decisions.md), "log n" notes/assumptions/n.md. -/

open Sys2Proof Sys2Proof.Machine

/- ### Encoding and decoding -/

/-- Words written out bit by bit from R102 to R104 decode to the instructions they stand for. The layout and the codes
are the spec's passages from general knowledge (D2, D3; log 9). -/
def Obligations.WrittenWordsDecode : Prop :=
  decode .ignore 0b0000010100110000#16 = .ok (.add 3#3 1#3 2#3) ∧
  decode .ignore 0b0000010100110100#16 = .ok (.slt 3#3 1#3 2#3) ∧
  decode .ignore 0b0001110000001000#16 = .ok (.jr 7#3) ∧
  decode .ignore 0b0010000010101010#16 = .ok (.addi 1#3 0#3 42#7) ∧
  decode .ignore 0b0100000000000101#16 = .ok (.j 5#13) ∧
  decode .ignore 0b0110000000000100#16 = .ok (.jal 4#13) ∧
  decode .ignore 0b1000000101111111#16 = .ok (.lw 2#3 0#3 0x7F#7) ∧
  decode .ignore 0b1010010101000000#16 = .ok (.sw 2#3 1#3 0x40#7) ∧
  decode .ignore 0b1100010000000011#16 = .ok (.jeq 1#3 0#3 3#7) ∧
  decode .ignore 0b1110010100000101#16 = .ok (.slti 2#3 1#3 5#7)

/-- Decoding an encoded instruction gives it back, for every instruction and under both settings of JR_UNUSED_BITS.
The layout and the codes are the spec's passages from general knowledge (D2, D3; log 9). -/
def Obligations.DecodeEncodeRoundTrip : Prop :=
  ∀ (m : JrUnusedBits) (i : Instr), decode m (encode i) = .ok i

/-- Encoding a decoded word gives the word back, but for the unused bits [9:4] of `jr`, which become zeros (R111,
R114; D5, log 11). The layout and the codes are the spec's passages from general knowledge (D2, D3; log 9). -/
def Obligations.EncodeDecodeRoundTrip : Prop :=
  ∀ (m : JrUnusedBits) (w : Word) (i : Instr), decode m w = .ok i →
    encode i = if w.toNat / 8192 = 0 ∧ w.toNat % 16 = 8 then w &&& 0xFC0F#16 else w

/-- The decoder of R109, each field as a number read from its bit positions (R105), on every legal word. The layout
and the codes are the spec's passages from general knowledge, PRESUMED (D2, D3; log 9); which `jr` words are legal is
D5 (log 11). -/
def Obligations.DecoderReadsEveryField : Prop :=
  ∀ (m : JrUnusedBits) (w : Word),
    let n := w.toNat
    let op := n / 8192
    let func := n % 16
    let regA : Reg := BitVec.ofNat 3 (n / 1024 % 8)
    let regB : Reg := BitVec.ofNat 3 (n / 128 % 8)
    let regDst : Reg := BitVec.ofNat 3 (n / 16 % 8)
    let imm7 : BitVec 7 := BitVec.ofNat 7 (n % 128)
    let imm13 : Addr := BitVec.ofNat 13 (n % 8192)
    (op = 0 → func = 0 → decode m w = .ok (.add regDst regA regB)) ∧
    (op = 0 → func = 1 → decode m w = .ok (.sub regDst regA regB)) ∧
    (op = 0 → func = 2 → decode m w = .ok (.or regDst regA regB)) ∧
    (op = 0 → func = 3 → decode m w = .ok (.and regDst regA regB)) ∧
    (op = 0 → func = 4 → decode m w = .ok (.slt regDst regA regB)) ∧
    (op = 0 → func = 8 → (m = .ignore ∨ n / 16 % 64 = 0) → decode m w = .ok (.jr regA)) ∧
    (op = 1 → decode m w = .ok (.addi regB regA imm7)) ∧
    (op = 2 → decode m w = .ok (.j imm13)) ∧
    (op = 3 → decode m w = .ok (.jal imm13)) ∧
    (op = 4 → decode m w = .ok (.lw regB regA imm7)) ∧
    (op = 5 → decode m w = .ok (.sw regB regA imm7)) ∧
    (op = 6 → decode m w = .ok (.jeq regA regB imm7)) ∧
    (op = 7 → decode m w = .ok (.slti regB regA imm7))

/-- The illegal words are exactly those of R110 and R111: opcode 000 with an unassigned function code, and, under
JR_UNUSED_BITS = decode_error, a `jr` with a nonzero bit among [9:4] (D4, D5; logs 10, 11). -/
def Obligations.IllegalWordsExactly : Prop :=
  ∀ (m : JrUnusedBits) (w : Word),
    (∃ e, decode m w = .error e) ↔
      w.toNat / 8192 = 0 ∧
        ((5 ≤ w.toNat % 16 ∧ w.toNat % 16 ≠ 8) ∨
          (w.toNat % 16 = 8 ∧ m = .decodeError ∧ w.toNat / 16 % 64 ≠ 0))

/- ### Launch and reset -/

/-- R40: a launch that passes its checks builds a memory holding the image from address 0 and zeros after it; an image
of more than 8192 words is rejected. -/
def Obligations.LaunchPlacesImage : Prop :=
  ∀ (config : CacheConfig) (params : Params) (mode : RegReset) (seed : Nat) (image : List Word),
    (config.MeetsR9 → image.length ≤ 8192 →
      ∃ s, launch config params mode seed image = .ok s ∧
        ∀ a : Addr, s.readMem a = if h : a.toNat < image.length then image[a.toNat] else 0#16) ∧
    (8192 < image.length → ∀ s, launch config params mode seed image ≠ .ok s)

/-- R44: at reset the event log is empty and the status Running; an invalid configuration has no reset state. -/
def Obligations.LaunchStartsRunningOrNotAtAll : Prop :=
  ∀ (config : CacheConfig) (params : Params) (mode : RegReset) (seed : Nat) (image : List Word),
    (∀ s, launch config params mode seed image = .ok s → s.events = [] ∧ s.status = .running) ∧
    (¬ config.MeetsR9 → launch config params mode seed image = .error .configurationError)

/-- R201: ConfigurationError is raised exactly for a geometry that is invalid in the words of R9, whatever the image
(R230's order; the exit code R201 names is outside the core, R5). -/
def Obligations.ConfigurationErrorExactly : Prop :=
  ∀ (config : CacheConfig) (params : Params) (mode : RegReset) (seed : Nat) (image : List Word),
    launch config params mode seed image = .error .configurationError ↔ ¬ config.MeetsR9

/-- The machine's reset state is the launch with no cache, the default parameters and the empty image (logs 2 to 6):
the model's choice of launch arguments, with the spec's values for every field. -/
def Obligations.ResetIsTheDefaultLaunch : Prop :=
  (∀ seed, launch .none Params.default .zero seed [] = .ok State.reset) ∧
    State.reset.pc = 0#13 ∧ State.reset.status = .running ∧ State.reset.events = [] ∧
    (∀ r, State.reset.readReg r = 0#16) ∧ ∀ a, State.reset.readMem a = 0#16

/-- What every launch gives pc, registers, caches and parameters. The values are the spec's decisions D9, D10 and D11
(logs 5, 6, 7). -/
def Obligations.LaunchResetValues : Prop :=
  ∀ (config : CacheConfig) (params : Params) (mode : RegReset) (seed : Nat) (image : List Word) (s : State),
    launch config params mode seed image = .ok s →
      s.pc = 0#13 ∧ s.readReg 0#3 = 0#16 ∧
      (mode = .zero → ∀ r, s.readReg r = 0#16) ∧
      (mode = .unspecified → ∀ r, r ≠ 0#3 → s.readReg r = Config.resetDraw seed r) ∧
      s.hier.config = config ∧ s.params = params ∧
      s.hier.All (fun c => c.counter = 0 ∧
        ∀ r i, c.slot r i = { valid := false, tag := 0, recency := 0, data := 0#16 })

/-- The machine's invariant holds at reset. -/
def Obligations.ResetSatisfiesInvariant : Prop := State.reset.Inv

/-- The machine's invariant holds at every launch, and so does transparency when every level has blocksize 1. -/
def Obligations.LaunchSatisfiesInvariant : Prop :=
  ∀ (config : CacheConfig) (params : Params) (mode : RegReset) (seed : Nat) (image : List Word) (s : State),
    launch config params mode seed image = .ok s → s.Inv ∧ (config.UnitBlocks → s.Transparent)

/-- R238: the first access to a row, whose slots are all still invalid, misses; every row is so at reset (D11). -/
def Obligations.EmptyRowsMiss : Prop :=
  (∀ (c : Cache) (a : Addr) (pd : Word) (w : Bool),
    (∀ i, (c.slot (c.decompose a).row i).valid = false) → (c.access a pd w).data = none) ∧
  ∀ (g : Geometry) (r i : Nat), ((Cache.empty g).slot r i).valid = false

/- ### Registers and the instructions of 40_alu.md -/

/-- R21: register 0 reads 0, a write to it does nothing, and after any instruction that names it as its destination
it is still 0, with every other register as before. -/
def Obligations.RegisterZeroHardwired : Prop :=
  (∀ s : State, s.readReg 0#3 = 0#16) ∧
  (∀ (s : State) (v : Word), s.writeReg 0#3 v = s) ∧
  ∀ (i : Instr) (s : State), destination i = some 0#3 →
    ∃ t, exec i s = .next t ∧ t.readReg 0#3 = 0#16 ∧ KeepsRegisters s t

/-- R136: with register 0 as destination the result is discarded, the pc still advances, and it is no error. -/
def Obligations.ZeroDestinationOnlyAdvances : Prop :=
  ∀ (i : Instr) (s : State), isAlu i = true → destination i = some 0#3 →
    ∃ t, exec i s = .next t ∧ KeepsRegisters s t ∧ OnlyRegister 0#3 s t

/-- R135: no instruction of the family raises an exception or changes the status, none writes memory, the caches or
the log, and none reads them (with other contents there, the same registers and pc result). -/
def Obligations.AluIgnoresMemoryAndCaches : Prop :=
  ∀ (i : Instr) (s : State) (mem : Memory) (hier : Hierarchy) (events : List CacheEvent), isAlu i = true →
    ∃ t, exec i s = .next t ∧ t.status = s.status ∧ t.mem = s.mem ∧ t.hier = s.hier ∧ t.events = s.events ∧
      exec i { s with mem := mem, hier := hier, events := events } =
        .next { t with mem := mem, hier := hier, events := events }

/-- `add` (R130): the sum mod 2^16, nothing else but the pc's advance. -/
def Obligations.AddResult : Prop :=
  ∀ (d a b : Reg) (s : State), ∃ t, exec (.add d a b) s = .next t ∧ OnlyRegister d s t ∧
    (d ≠ 0#3 → (t.readReg d).toNat = ((s.readReg a).toNat + (s.readReg b).toNat) % 65536)

/-- `sub` (R131): the difference mod 2^16, nothing else but the pc's advance. -/
def Obligations.SubResult : Prop :=
  ∀ (d a b : Reg) (s : State), ∃ t, exec (.sub d a b) s = .next t ∧ OnlyRegister d s t ∧
    (d ≠ 0#3 → ((t.readReg d).toNat : Int) = (((s.readReg a).toNat : Int) - (s.readReg b).toNat) % 65536)

/-- `or` (R132): bit by bit over all 16 bits, nothing else but the pc's advance. -/
def Obligations.OrResult : Prop :=
  ∀ (d a b : Reg) (s : State), ∃ t, exec (.or d a b) s = .next t ∧ OnlyRegister d s t ∧
    (d ≠ 0#3 → ∀ k < 16, (t.readReg d).getLsbD k = ((s.readReg a).getLsbD k || (s.readReg b).getLsbD k))

/-- `and` (R133): bit by bit over all 16 bits, nothing else but the pc's advance. -/
def Obligations.AndResult : Prop :=
  ∀ (d a b : Reg) (s : State), ∃ t, exec (.and d a b) s = .next t ∧ OnlyRegister d s t ∧
    (d ≠ 0#3 → ∀ k < 16, (t.readReg d).getLsbD k = ((s.readReg a).getLsbD k && (s.readReg b).getLsbD k))

/-- `slt` (R134): 1 when the first register is below the second as unsigned numbers, 0 otherwise. -/
def Obligations.SltResult : Prop :=
  ∀ (d a b : Reg) (s : State), ∃ t, exec (.slt d a b) s = .next t ∧ OnlyRegister d s t ∧
    (d ≠ 0#3 → (t.readReg d).toNat = if (s.readReg a).toNat < (s.readReg b).toNat then 1 else 0)

/-- `addi` (R138): the sum with the sign-extended immediate mod 2^16. Sign extension is the spec's decision D6
(log 12). -/
def Obligations.AddiResult : Prop :=
  ∀ (d a : Reg) (imm7 : BitVec 7) (s : State), ∃ t, exec (.addi d a imm7) s = .next t ∧ OnlyRegister d s t ∧
    (d ≠ 0#3 → ((t.readReg d).toNat : Int) =
      ((s.readReg a).toNat + (if 64 ≤ imm7.toNat then (imm7.toNat : Int) - 128 else imm7.toNat)) % 65536)

/-- `slti` (R140, R141): 1 or 0 by the comparison of each setting of SLTI_COMPARE (D7, log 25). -/
def Obligations.SltiResult : Prop :=
  ∀ (d a : Reg) (imm7 : BitVec 7) (s : State), ∃ t, exec (.slti d a imm7) s = .next t ∧ OnlyRegister d s t ∧
    let r : Int := (s.readReg a).toNat
    let imm : Int := if 64 ≤ imm7.toNat then (imm7.toNat : Int) - 128 else imm7.toNat
    (d ≠ 0#3 → (t.readReg d).toNat =
      match s.params.sltiCompare with
      | .widened => if r < imm then 1 else 0
      | .signed16 => if (if 32768 ≤ r then r - 65536 else r) < imm then 1 else 0
      | .unsigned16 => if r < imm % 65536 then 1 else 0)

/-- R205: no instruction raises an exception: every instruction completes, in every state and with every operand, and
none enters the Faulted status. -/
def Obligations.EveryInstructionCompletes : Prop :=
  ∀ (i : Instr) (s : State), ∃ t, exec i s = .next t ∧
    ∀ pc word, t.status = .faulted pc word → s.status = .faulted pc word

/- ### Control transfer and HALT -/

/-- R151, R152: a `j` halts exactly when its target equals the pc; the halt changes nothing but the run status, and no
step follows it. A `j` to any other target only sets the pc. -/
def Obligations.JumpToSelfHalts : Prop :=
  ∀ (imm13 : Addr) (s : State), ∃ t, exec (.j imm13) s = .next t ∧
    t.pc = imm13 ∧ KeepsRegisters s t ∧ KeepsMemory s t ∧ KeepsCaches s t ∧ t.params = s.params ∧
    (imm13 = s.pc → t = { s with status := .halted } ∧ ∀ u, step t ≠ .next u) ∧
    (imm13 ≠ s.pc → t.status = s.status)

/-- R156: `jal` writes wrap13(pc + 1) into register 7, also when the target equals the pc, and the write cannot change
where the jump goes (R155). That a `jal` to its own address keeps the status, and so does not halt (R157), is the spec's
decision D19 (log 20). -/
def Obligations.JalLinksAndJumps : Prop :=
  ∀ (imm13 : Addr) (s : State), ∃ t, exec (.jal imm13) s = .next t ∧
    (t.readReg 7#3).toNat = (s.pc.toNat + 1) % 8192 ∧ (s.pc = 8191#13 → t.readReg 7#3 = 0#16) ∧
    t.pc = imm13 ∧ KeepsRegistersBut 7#3 s t ∧ KeepsMemory s t ∧ KeepsCaches s t ∧ KeepsControl s t

/-- R158, R159: `jr` goes to the register's value mod 8192, `jr $0` to 0, and writes no register. That it does not
halt, at its own address either (R153), is the spec's decision D19 (log 20). -/
def Obligations.JrWrapsItsTarget : Prop :=
  ∀ (a : Reg) (s : State), ∃ t, exec (.jr a) s = .next t ∧ OnlyPc s t ∧
    t.pc.toNat = (s.readReg a).toNat % 8192 ∧ (a = 0#3 → t.pc = 0#13)

/-- R162, R163: where `jeq` goes, taken and not taken, at its corner cases, and that it writes no register. That a
taken `jeq` with displacement -1 does not halt (R153) is the spec's decision D19 (log 20). -/
def Obligations.JeqTargets : Prop :=
  ∀ (a b : Reg) (imm7 : BitVec 7) (s : State), ∃ t, exec (.jeq a b imm7) s = .next t ∧ OnlyPc s t ∧
    (s.readReg a ≠ s.readReg b → t.pc.toNat = (s.pc.toNat + 1) % 8192) ∧
    (s.readReg a = s.readReg b → (t.pc.toNat : Int) =
      (s.pc.toNat + 1 + (if 64 ≤ imm7.toNat then (imm7.toNat : Int) - 128 else imm7.toNat)) % 8192) ∧
    (s.readReg a = s.readReg b → imm7 = 0x7F#7 → t.pc = s.pc) ∧
    (imm7 = 0#7 → t.pc.toNat = (s.pc.toNat + 1) % 8192) ∧
    (s.readReg a = s.readReg b → s.pc = 0#13 → imm7 = 0x7E#7 → t.pc = 8191#13) ∧
    (s.readReg a = s.readReg b → s.pc = 8191#13 → imm7 = 1#7 → t.pc = 1#13) ∧
    (s.readReg a ≠ s.readReg b → s.pc = 8191#13 → t.pc = 0#13) ∧
    (a = b → s.readReg a = s.readReg b)

/-- R153, R157: only a `j` to its own address halts; `jal`, `jr` and `jeq` to themselves go on. That no other
self-loop halts is the spec's decision D19 (log 20); the fault that a halted core answers is the model's (log 21). -/
def Obligations.OnlyJumpToSelfHalts : Prop :=
  (∀ s : State, s.status = .running →
    ((∃ t, step s = .next t ∧ t.status = .halted) ↔ s.decodeFetched = .ok (.j s.pc))) ∧
  (∀ (i : Instr) (s : State), (∀ imm13, i ≠ .j imm13) → ∃ t, exec i s = .next t ∧ t.status = s.status) ∧
  ∀ s : State, s.status = .halted → step s = .fault .coreHalted

/-- R26: a step changes the pc to wrap13(pc + 1), or as the rule of `j`, `jal`, `jr` or `jeq` says; a DecodeError
leaves it. Every resulting pc is below 8192. -/
def Obligations.PcAdvancesOrJumps : Prop :=
  ∀ s t : State, step s = .next t →
    t.pc.toNat < 8192 ∧
    match s.decodeFetched with
    | .error _ => t.pc = s.pc
    | .ok (.j imm13) => t.pc = imm13
    | .ok (.jal imm13) => t.pc = imm13
    | .ok (.jr a) => t.pc.toNat = (s.readReg a).toNat % 8192
    | .ok (.jeq a b imm7) =>
      (t.pc.toNat : Int) =
        if s.readReg a = s.readReg b then (s.pc.toNat + 1 + sext7 imm7) % 8192 else (s.pc.toNat + 1) % 8192
    | .ok _ => FallsThrough s t ∧ (s.pc = 8191#13 → t.pc = 0#13)

/-- R23: an instruction changes no register but its destination; `jr`, `jeq`, `j` and `sw` change none. -/
def Obligations.OnlyDestinationChanges : Prop :=
  ∀ (i : Instr) (s t : State), exec i s = .next t →
    ∀ r, destination i ≠ some r → t.readReg r = s.readReg r

/- ### Loads and stores -/

/-- R170, R171: the effective address is the Euclidean remainder mod 8192 of base plus sign-extended offset, with the
corner cases of R171. The Euclidean remainder is the spec's decision D8 (log 13). -/
def Obligations.EffectiveAddressWraps : Prop :=
  (∀ (x : Word) (imm7 : BitVec 7), ((effectiveAddress x imm7).toNat : Int) = (x.toNat + sext7 imm7) % 8192) ∧
  effectiveAddress 0x0000#16 0x7F#7 = 8191#13 ∧ effectiveAddress 0x0000#16 0x40#7 = 8128#13 ∧
  effectiveAddress 0x1FFF#16 0x01#7 = 0#13 ∧ effectiveAddress 0x2000#16 0x00#7 = 0#13 ∧
  effectiveAddress 0xFFFF#16 0x01#7 = 0#13 ∧ effectiveAddress 0x0010#16 0x3F#7 = 79#13

/-- `lw` (R172 to R174, R79): the hierarchy's load at the effective address runs in full whatever the destination; the
destination gets the value LOAD_VALUE_SOURCE selects (D14, log 15); no word of memory changes. -/
def Obligations.LwResult : Prop :=
  ∀ (d a : Reg) (imm7 : BitVec 7) (s : State), ∃ t, exec (.lw d a imm7) s = .next t ∧
    let ea := effectiveAddress (s.readReg a) imm7
    let r := s.hier.load s.pc ea (s.readMem ea)
    (d ≠ 0#3 → t.readReg d =
      match s.params.loadValueSource with
      | .hierarchy => r.value
      | .memory => s.readMem ea) ∧
    t.hier = r.hier ∧ t.events = s.events ++ r.events ∧
    KeepsRegistersBut d s t ∧ FallsThrough s t ∧ KeepsMemory s t ∧ KeepsControl s t

/-- R49, R177: `sw` puts the register's value in the word at its effective address, whatever stands there, and a later
fetch from there sees it; every other word reads as before; it writes no register and never fails. The caches and the
log change as the hierarchy's store says (R75). -/
def Obligations.SwResult : Prop :=
  ∀ (src a : Reg) (imm7 : BitVec 7) (s : State), s.mem.wf → ∃ t, exec (.sw src a imm7) s = .next t ∧
    let ea := effectiveAddress (s.readReg a) imm7
    let r := s.hier.store s.pc ea (s.readReg src)
    t.readMem ea = s.readReg src ∧ (src = 0#3 → t.readMem ea = 0#16) ∧
    (∀ b, b ≠ ea → t.readMem b = s.readMem b) ∧
    (∀ u : State, u.mem = t.mem → u.pc = ea → u.fetch = s.readReg src) ∧
    t.hier = r.hier ∧ t.events = s.events ++ r.events ∧
    KeepsRegisters s t ∧ FallsThrough s t ∧ KeepsControl s t

/-- R88: `sw` is the only instruction that writes memory: a word a step changes is the one at the effective address of
the `sw` it ran. -/
def Obligations.OnlyStoresWriteMemory : Prop :=
  ∀ (s t : State) (b : Addr), s.mem.wf → step s = .next t → t.readMem b ≠ s.readMem b →
    ∃ src a imm7, s.decodeFetched = .ok (.sw src a imm7) ∧ b = effectiveAddress (s.readReg a) imm7 ∧
      t.readMem b = s.readReg src

/-- R88: when a `sw` stores to the address that comes next, the next step fetches and decodes the word just stored. -/
def Obligations.StoreVisibleToNextFetch : Prop :=
  ∀ (s : State) (src a : Reg) (imm7 : BitVec 7), s.mem.wf → s.status = .running →
    s.decodeFetched = .ok (.sw src a imm7) → effectiveAddress (s.readReg a) imm7 = nextPc s.pc →
      ∃ t, step s = .next t ∧ t.fetch = s.readReg src ∧
        t.decodeFetched = decode s.params.jrUnusedBits (s.readReg src)

/-- R84, R80: a `lw` of the address a `sw` has just written returns the stored value, for every configuration and
either LOAD_VALUE_SOURCE; with a cache it is one L1 hit. -/
def Obligations.LoadAfterStoreReturnsIt : Prop :=
  ∀ (s : State) (src a d b : Reg) (imm7 imm7' : BitVec 7), s.Inv → d ≠ 0#3 →
    effectiveAddress (s.readReg b) imm7' = effectiveAddress (s.readReg a) imm7 →
      ∃ t u, exec (.sw src a imm7) s = .next t ∧ exec (.lw d b imm7') t = .next u ∧
        u.readReg d = s.readReg src ∧ u.readMem (effectiveAddress (s.readReg a) imm7) = s.readReg src ∧
        (s.hier = .none → u.events = s.events) ∧
        (s.hier ≠ .none → ∃ row,
          u.events = t.events ++ [cacheEvent t.pc (effectiveAddress (s.readReg a) imm7) .l1 .hit row])

/- ### The address decomposer and one cache level -/

/-- R52: tag, row and offset by shifts and masks, the sum that gives the address back, and the corner cases. -/
def Obligations.DecomposerSplitsAddress : Prop :=
  ∀ (a : Addr) (offsetBits indexBits : Nat),
    let blocksize := 2 ^ offsetBits
    let numRows := 2 ^ indexBits
    let d := decompose a blocksize numRows
    d.offset = a.toNat &&& (blocksize - 1) ∧
    d.row = (a.toNat >>> offsetBits) &&& (numRows - 1) ∧
    d.tag = a.toNat >>> (offsetBits + indexBits) ∧
    a.toNat = d.tag * blocksize * numRows + d.row * blocksize + d.offset ∧
    d.offset < blocksize ∧ d.row < numRows ∧
    (13 ≤ offsetBits + indexBits → d.tag = 0) ∧ (13 ≤ offsetBits → d.row = 0)

/-- R58: what a hit does to its slot and answers. -/
def Obligations.AccessHit : Prop :=
  ∀ (c : Cache) (a : Addr) (pd : Word) (isWrite : Bool) (i : Nat), c.Shape →
    (c.slot (c.decompose a).row i).valid = true → (c.slot (c.decompose a).row i).tag = (c.decompose a).tag →
    (∀ j < i, (c.slot (c.decompose a).row j).valid = true →
      (c.slot (c.decompose a).row j).tag ≠ (c.decompose a).tag) →
      let x := c.access a pd isWrite
      let old := c.slot (c.decompose a).row i
      let new := x.cache.slot (c.decompose a).row i
      x.row = (c.decompose a).row ∧
      x.data = some (if isWrite = true then pd else old.data) ∧
      new.data = (if isWrite = true then pd else old.data) ∧
      new.recency = x.cache.counter ∧
      new.valid = old.valid ∧ new.tag = old.tag ∧
      SameSlotsBut (c.decompose a).row i c x.cache

/-- R59: on a miss the slot replaced is the one of smallest recency in its row, ties to the lowest index. -/
def Obligations.MissReplacesLeastRecentlyUsed : Prop :=
  ∀ (c : Cache) (a : Addr) (pd : Word) (isWrite : Bool), c.Shape → c.Lacks a →
    let r := (c.decompose a).row
    ∃ v, v < c.geom.associativity ∧
      (∀ j < c.geom.associativity, (c.slot r v).recency ≤ (c.slot r j).recency) ∧
      (∀ j < v, (c.slot r v).recency < (c.slot r j).recency) ∧
      ((c.access a pd isWrite).cache.slot r v).tag = (c.decompose a).tag ∧
      ((c.access a pd isWrite).cache.slot r v).valid = true ∧
      SameSlotsBut r v c (c.access a pd isWrite).cache

/-- R60: what a miss installs, and that it answers no data. That a read leaves the data field as it was is the spec's
decision D13 (log 14). -/
def Obligations.MissInstallsTag : Prop :=
  ∀ (c : Cache) (a : Addr) (pd : Word) (isWrite : Bool), c.Shape → c.Lacks a →
    let x := c.access a pd isWrite
    let r := (c.decompose a).row
    x.data = none ∧ x.row = r ∧ x.cache.counter = c.counter + 1 ∧
    ∃ v, x.cache.slot r v =
      { valid := true, tag := (c.decompose a).tag, recency := c.counter + 1,
        data := if isWrite = true then pd else (c.slot r v).data }

/-- R65, R56: an access changes no other row of its level; the counter advances by exactly one. -/
def Obligations.AccessStaysInItsRow : Prop :=
  ∀ (c : Cache) (a : Addr) (pd : Word) (isWrite : Bool),
    (∀ r, r ≠ (c.decompose a).row → (c.access a pd isWrite).cache.row r = c.row r) ∧
    (c.access a pd isWrite).cache.counter = c.counter + 1 ∧
    (c.access a pd isWrite).cache.geom = c.geom

/-- R63: in a row that still has an invalid slot the victim is the lowest-indexed invalid one; in a full row it is the
slot touched least recently, and no other shares its stamp. -/
def Obligations.InvalidSlotsChosenFirst : Prop :=
  ∀ (c : Cache) (r : Nat), c.Wf → r < c.rows.length →
    let v := victimSlot (c.row r)
    (∀ i < c.geom.associativity, (c.slot r i).valid = false → v ≤ i ∧ (c.slot r v).valid = false) ∧
    ((∀ i < c.geom.associativity, (c.slot r i).valid = true) →
      ∀ j < c.geom.associativity, j ≠ v → (c.slot r v).recency < (c.slot r j).recency)

/-- R82: the fill that ends a missed load hits the slot its probe has just installed, and leaves the fetched value
there with the second new stamp; every other slot is as before the load. -/
def Obligations.FillFindsItsProbesSlot : Prop :=
  ∀ (c : Cache) (a : Addr) (v : Word), c.Shape → c.Lacks a →
    let r := (c.decompose a).row
    let f := (c.probe a).cache.fill a v
    (c.probe a).data = none ∧ f.data = some v ∧ f.row = r ∧
    ∃ i, f.cache.slot r i = { valid := true, tag := (c.decompose a).tag, recency := c.counter + 2, data := v } ∧
      SameSlotsBut r i c f.cache

/- ### The hierarchy -/

/-- R69: with no cache HierLoad is MemRead and HierStore is MemWrite, with no event. -/
def Obligations.NoCacheIsDirectAccess : Prop :=
  ∀ (s : State) (a : Addr) (v : Word), s.hier = .none →
    (s.hierLoad a).value = s.readMem a ∧ (s.hierLoad a).events = [] ∧ (s.hierLoad a).hier = .none ∧
    s.hierStore a v = s.writeMem a v

/-- R70 to R74: HierLoad, case by case: which accesses each level makes, the value, and the events in order. -/
def Obligations.HierLoadCases : Prop :=
  ∀ (c1 c2 : Cache) (pc a : Addr) (m : Word),
    let p1 := c1.access a 0#16 false
    let p2 := c2.access a 0#16 false
    let e := fun (l : LevelName) (k : StatusKind) =>
      CacheEvent.mk l k pc a (match l with | .l1 => (c1.decompose a).row | .l2 => (c2.decompose a).row)
    (∀ d, p1.data = some d →
      (Hierarchy.l1 c1).load pc a m = { hier := .l1 p1.cache, events := [e .l1 .hit], value := d } ∧
      (Hierarchy.l1l2 c1 c2).load pc a m = { hier := .l1l2 p1.cache c2, events := [e .l1 .hit], value := d }) ∧
    (p1.data = none →
      (Hierarchy.l1 c1).load pc a m =
        { hier := .l1 (p1.cache.access a m true).cache, events := [e .l1 .miss, e .l1 .write], value := m }) ∧
    (p1.data = none → ∀ d, p2.data = some d →
      (Hierarchy.l1l2 c1 c2).load pc a m =
        { hier := .l1l2 (p1.cache.access a d true).cache p2.cache
          events := [e .l1 .miss, e .l2 .hit, e .l1 .write], value := d }) ∧
    (p1.data = none → p2.data = none →
      (Hierarchy.l1l2 c1 c2).load pc a m =
        { hier := .l1l2 (p1.cache.access a m true).cache (p2.cache.access a m true).cache
          events := [e .l1 .miss, e .l2 .miss, e .l2 .write, e .l1 .write], value := m })

/-- R75: HierStore writes memory, then makes one write access to L1 with its WRITE event, then one to L2 with its
own; no register, pc, status or parameter changes. -/
def Obligations.HierStoreCases : Prop :=
  ∀ (s : State) (a : Addr) (v : Word),
    let t := s.hierStore a v
    let isWrite := fun (e : CacheEvent) (l : LevelName) (c : Cache) =>
      e.levelName = l ∧ e.statusKind = .write ∧ e.effectiveAddress = a ∧ e.rowIndex = (c.decompose a).row
    t.mem = (s.writeMem a v).mem ∧ t.regs = s.regs ∧ t.pc = s.pc ∧ t.status = s.status ∧ t.params = s.params ∧
    (∀ c1, s.hier = .l1 c1 →
      t.hier = .l1 (c1.access a v true).cache ∧ ∃ e, t.events = s.events ++ [e] ∧ isWrite e .l1 c1) ∧
    (∀ c1 c2, s.hier = .l1l2 c1 c2 →
      t.hier = .l1l2 (c1.access a v true).cache (c2.access a v true).cache ∧
      ∃ e1 e2, t.events = s.events ++ [e1, e2] ∧ isWrite e1 .l1 c1 ∧ isWrite e2 .l2 c2)

/-- R77: the event sequences a load or a store can emit are exactly those of the table, and every event carries the
pc, the effective address and its level's row for it. -/
def Obligations.EventSequences : Prop :=
  ∀ (h : Hierarchy) (pc a : Addr) (m : Word),
    (∀ e ∈ (h.load pc a m).events, h.Describes pc a e) ∧ (∀ e ∈ (h.store pc a m).events, h.Describes pc a e) ∧
    match h with
    | .none => (h.load pc a m).events = [] ∧ (h.store pc a m).events = []
    | .l1 _ =>
      kinds (h.load pc a m).events ∈ [[(.l1, .hit)], [(.l1, .miss), (.l1, .write)]] ∧
      kinds (h.store pc a m).events = [(.l1, .write)]
    | .l1l2 _ _ =>
      kinds (h.load pc a m).events ∈
        [[(.l1, .hit)], [(.l1, .miss), (.l2, .hit), (.l1, .write)],
          [(.l1, .miss), (.l2, .miss), (.l2, .write), (.l1, .write)]] ∧
      kinds (h.store pc a m).events = [(.l1, .write), (.l2, .write)]

/-- R78: how far each level's counter advances in a load, by the events it emits, and in a store. -/
def Obligations.CounterConsumption : Prop :=
  ∀ (c1 c2 : Cache) (pc a : Addr) (m : Word),
    (∃ c1', ((Hierarchy.l1 c1).load pc a m).hier = .l1 c1' ∧
      (kinds ((Hierarchy.l1 c1).load pc a m).events = [(.l1, .hit)] → c1'.counter = c1.counter + 1) ∧
      (kinds ((Hierarchy.l1 c1).load pc a m).events = [(.l1, .miss), (.l1, .write)] →
        c1'.counter = c1.counter + 2)) ∧
    (∃ c1' c2', ((Hierarchy.l1l2 c1 c2).load pc a m).hier = .l1l2 c1' c2' ∧
      (kinds ((Hierarchy.l1l2 c1 c2).load pc a m).events = [(.l1, .hit)] →
        c1'.counter = c1.counter + 1 ∧ c2'.counter = c2.counter) ∧
      (kinds ((Hierarchy.l1l2 c1 c2).load pc a m).events = [(.l1, .miss), (.l2, .hit), (.l1, .write)] →
        c1'.counter = c1.counter + 2 ∧ c2'.counter = c2.counter + 1) ∧
      (kinds ((Hierarchy.l1l2 c1 c2).load pc a m).events =
          [(.l1, .miss), (.l2, .miss), (.l2, .write), (.l1, .write)] →
        c1'.counter = c1.counter + 2 ∧ c2'.counter = c2.counter + 2)) ∧
    (∃ c1', ((Hierarchy.l1 c1).store pc a m).hier = .l1 c1' ∧ c1'.counter = c1.counter + 1) ∧
    ∃ c1' c2', ((Hierarchy.l1l2 c1 c2).store pc a m).hier = .l1l2 c1' c2' ∧
      c1'.counter = c1.counter + 1 ∧ c2'.counter = c2.counter + 1

/-- R62: a slot's valid bit never returns to false; with it, a level keeps its geometry and its counter never goes
down. -/
def Obligations.ValidSlotsStayValid : Prop :=
  ∀ s t : State, step s = .next t →
    Hierarchy.Rel (fun c c' => c'.geom = c.geom ∧ c.counter ≤ c'.counter ∧
      ∀ r i, (c.slot r i).valid = true → (c'.slot r i).valid = true) s.hier t.hier

/-- R87: only `lw` and `sw` reach the hierarchy; the fetch neither reads nor changes it (D17, log 18). -/
def Obligations.OnlyLoadsAndStoresReachCaches : Prop :=
  (∀ (i : Instr) (s t : State), exec i s = .next t → reachesHierarchy i = false → KeepsCaches s t) ∧
  ∀ (s : State) (hier : Hierarchy) (events : List CacheEvent),
    ({ s with hier := hier, events := events } : State).decodeFetched = s.decodeFetched

/-- R37, R232: a step only appends to the event log, at most four records, each carrying the pc of the step's own
instruction; only a `lw` or `sw` appends any. -/
def Obligations.EventLogOnlyGrows : Prop :=
  ∀ s t : State, step s = .next t →
    ∃ es, t.events = s.events ++ es ∧ es.length ≤ 4 ∧ (∀ e ∈ es, e.programCounterAtAccess = s.pc) ∧
      (es ≠ [] → ∃ i, s.decodeFetched = .ok i ∧ reachesHierarchy i = true)

/-- R80: when the caches are transparent a load through the hierarchy returns the memory word. -/
def Obligations.TransparentLoadsReturnMemory : Prop :=
  ∀ (s : State) (a : Addr), s.Transparent → (s.hierLoad a).value = s.readMem a

/- ### The step -/

/-- R231: the step of a running core fetches at the pc, decodes, and runs the decoded instruction (which advances the
pc unless it sets it); an illegal word only sets the status; a `j` to its own address only halts; a stopped core has no
step. -/
def Obligations.StepRunsDecodedInstruction : Prop :=
  ∀ s : State,
    (s.status = .running → ∀ i, decode s.params.jrUnusedBits (s.readMem s.pc) = .ok i → step s = exec i s) ∧
    (s.status = .running → ∀ e, decode s.params.jrUnusedBits (s.readMem s.pc) = .error e →
      step s = .next { s with status := .faulted s.pc (s.readMem s.pc) }) ∧
    exec (.j s.pc) s = .next { s with status := .halted } ∧
    (∀ i t, exec i s = .next t → setsPc i = false → FallsThrough s t) ∧
    (s.status ≠ .running → ∀ t, step s ≠ .next t)

/-- R203, R208: a DecodeError records the pc and the word and has no other effect; no step follows it. What is
recorded is the spec's decision D20 (log 21). -/
def Obligations.DecodeErrorStopsPrecisely : Prop :=
  ∀ (s : State) (e : DecodeRefusal), s.status = .running → s.decodeFetched = .error e →
    ∃ t, step s = .next t ∧ t.status = .faulted s.pc (s.readMem s.pc) ∧ t.pc = s.pc ∧ t.params = s.params ∧
      KeepsRegisters s t ∧ KeepsMemory s t ∧ KeepsCaches s t ∧
      step t = .fault (.coreFaulted s.pc (s.readMem s.pc))

/-- R36: Running is the initial status; Halted is entered by the HALT convention alone, Faulted by a decode error
alone; no step leaves either. That no self-loop but `j` halts (R153) is the spec's decision D19 (log 20); that Faulted
records the pc and the word (R203) is D20 (log 21). -/
def Obligations.RunStatusLifecycle : Prop :=
  (∀ config params mode seed image s, launch config params mode seed image = .ok s → s.status = .running) ∧
  (∀ s : State, s.status = .running → ∃ t, step s = .next t ∧
    (t.status = .halted ↔ s.decodeFetched = .ok (.j s.pc)) ∧
    (∀ pc word, t.status = .faulted pc word ↔
      (pc = s.pc ∧ word = s.fetch ∧ ∃ e, s.decodeFetched = .error e))) ∧
  (∀ s : State, (s.EndedWell ∨ s.EndedBadly) → ∀ t, step s ≠ .next t)

/-- No step changes the cache configuration or a parameter (R29, R39, R67). -/
def Obligations.ConfigurationIsFixed : Prop :=
  ∀ s t : State, step s = .next t → t.params = s.params ∧ t.hier.config = s.hier.config

/-- THE INVARIANT: every step keeps the memory canonical, register 0 at 0, every level well formed (shape, recency,
unique tags, bounded tags: R32, R33, R63, R64), and every recorded row a row of its level (R37). -/
def Obligations.StepKeepsInvariant : Prop :=
  ∀ s t : State, s.Inv → step s = .next t → t.Inv

/-- R80: every step keeps every valid slot equal to the memory word it stands for, when every blocksize is 1. -/
def Obligations.StepKeepsTransparency : Prop :=
  ∀ s t : State, s.Transparent → step s = .next t → t.Transparent

/-- R34, R79, R80: when the caches are transparent, or loads take the memory word, a program cannot tell the core from
one with no cache: the step of the cache-free core gives the cache-free view of the step. -/
def Obligations.CachesAreInvisible : Prop :=
  ∀ s t : State, (s.Transparent ∨ s.params.loadValueSource = .memory) → step s = .next t →
    step s.withoutCaches = .next t.withoutCaches
end

