-- ==== Sys2Proof/Laws/State.lean ====
section
/-! SUPPORT. What each named update of the state does to each field, one lemma per field per update. -/

namespace Sys2Proof.Machine

section
variable (s : State)

@[simp] theorem State.writeReg_regs (r : Reg) (v : Word) : (s.writeReg r v).regs = if r = 0#3 then s.regs else s.regs.set r.toNat v r.isLt := rfl
@[simp] theorem State.writeReg_pc (r : Reg) (v : Word) : (s.writeReg r v).pc = s.pc := rfl
@[simp] theorem State.writeReg_mem (r : Reg) (v : Word) : (s.writeReg r v).mem = s.mem := rfl
@[simp] theorem State.writeReg_hier (r : Reg) (v : Word) : (s.writeReg r v).hier = s.hier := rfl
@[simp] theorem State.writeReg_events (r : Reg) (v : Word) : (s.writeReg r v).events = s.events := rfl
@[simp] theorem State.writeReg_status (r : Reg) (v : Word) : (s.writeReg r v).status = s.status := rfl
@[simp] theorem State.writeReg_params (r : Reg) (v : Word) : (s.writeReg r v).params = s.params := rfl

@[simp] theorem State.writeMem_regs (a : Addr) (v : Word) : (s.writeMem a v).regs = s.regs := rfl
@[simp] theorem State.writeMem_pc (a : Addr) (v : Word) : (s.writeMem a v).pc = s.pc := rfl
@[simp] theorem State.writeMem_mem (a : Addr) (v : Word) : (s.writeMem a v).mem = s.mem.write a.toNat v := rfl
@[simp] theorem State.writeMem_hier (a : Addr) (v : Word) : (s.writeMem a v).hier = s.hier := rfl
@[simp] theorem State.writeMem_events (a : Addr) (v : Word) : (s.writeMem a v).events = s.events := rfl
@[simp] theorem State.writeMem_status (a : Addr) (v : Word) : (s.writeMem a v).status = s.status := rfl
@[simp] theorem State.writeMem_params (a : Addr) (v : Word) : (s.writeMem a v).params = s.params := rfl

@[simp] theorem State.setPc_regs (t : Addr) : (s.setPc t).regs = s.regs := rfl
@[simp] theorem State.setPc_pc (t : Addr) : (s.setPc t).pc = t := rfl
@[simp] theorem State.setPc_mem (t : Addr) : (s.setPc t).mem = s.mem := rfl
@[simp] theorem State.setPc_hier (t : Addr) : (s.setPc t).hier = s.hier := rfl
@[simp] theorem State.setPc_events (t : Addr) : (s.setPc t).events = s.events := rfl
@[simp] theorem State.setPc_status (t : Addr) : (s.setPc t).status = s.status := rfl
@[simp] theorem State.setPc_params (t : Addr) : (s.setPc t).params = s.params := rfl

@[simp] theorem State.advance_regs : (s.advance).regs = s.regs := rfl
@[simp] theorem State.advance_pc : (s.advance).pc = nextPc s.pc := rfl
@[simp] theorem State.advance_mem : (s.advance).mem = s.mem := rfl
@[simp] theorem State.advance_hier : (s.advance).hier = s.hier := rfl
@[simp] theorem State.advance_events : (s.advance).events = s.events := rfl
@[simp] theorem State.advance_status : (s.advance).status = s.status := rfl
@[simp] theorem State.advance_params : (s.advance).params = s.params := rfl

@[simp] theorem State.retire_regs (d : Reg) (v : Word) : (s.retire d v).regs = (s.writeReg d v).regs := rfl
@[simp] theorem State.retire_pc (d : Reg) (v : Word) : (s.retire d v).pc = nextPc s.pc := rfl
@[simp] theorem State.retire_mem (d : Reg) (v : Word) : (s.retire d v).mem = s.mem := rfl
@[simp] theorem State.retire_hier (d : Reg) (v : Word) : (s.retire d v).hier = s.hier := rfl
@[simp] theorem State.retire_events (d : Reg) (v : Word) : (s.retire d v).events = s.events := rfl
@[simp] theorem State.retire_status (d : Reg) (v : Word) : (s.retire d v).status = s.status := rfl
@[simp] theorem State.retire_params (d : Reg) (v : Word) : (s.retire d v).params = s.params := rfl

@[simp] theorem State.emit_regs (es : List CacheEvent) : (s.emit es).regs = s.regs := rfl
@[simp] theorem State.emit_pc (es : List CacheEvent) : (s.emit es).pc = s.pc := rfl
@[simp] theorem State.emit_mem (es : List CacheEvent) : (s.emit es).mem = s.mem := rfl
@[simp] theorem State.emit_hier (es : List CacheEvent) : (s.emit es).hier = s.hier := rfl
@[simp] theorem State.emit_events (es : List CacheEvent) : (s.emit es).events = s.events ++ es := rfl
@[simp] theorem State.emit_status (es : List CacheEvent) : (s.emit es).status = s.status := rfl
@[simp] theorem State.emit_params (es : List CacheEvent) : (s.emit es).params = s.params := rfl

@[simp] theorem State.halt_regs : (s.halt).regs = s.regs := rfl
@[simp] theorem State.halt_pc : (s.halt).pc = s.pc := rfl
@[simp] theorem State.halt_mem : (s.halt).mem = s.mem := rfl
@[simp] theorem State.halt_hier : (s.halt).hier = s.hier := rfl
@[simp] theorem State.halt_events : (s.halt).events = s.events := rfl
@[simp] theorem State.halt_status : (s.halt).status = .halted := rfl
@[simp] theorem State.halt_params : (s.halt).params = s.params := rfl

@[simp] theorem State.raiseDecodeError_regs (w : Word) : (s.raiseDecodeError w).regs = s.regs := rfl
@[simp] theorem State.raiseDecodeError_pc (w : Word) : (s.raiseDecodeError w).pc = s.pc := rfl
@[simp] theorem State.raiseDecodeError_mem (w : Word) : (s.raiseDecodeError w).mem = s.mem := rfl
@[simp] theorem State.raiseDecodeError_hier (w : Word) : (s.raiseDecodeError w).hier = s.hier := rfl
@[simp] theorem State.raiseDecodeError_events (w : Word) : (s.raiseDecodeError w).events = s.events := rfl
@[simp] theorem State.raiseDecodeError_status (w : Word) : (s.raiseDecodeError w).status = .faulted s.pc w := rfl
@[simp] theorem State.raiseDecodeError_params (w : Word) : (s.raiseDecodeError w).params = s.params := rfl

@[simp] theorem State.afterHier_regs (r : HierResult) : (s.afterHier r).regs = s.regs := rfl
@[simp] theorem State.afterHier_pc (r : HierResult) : (s.afterHier r).pc = s.pc := rfl
@[simp] theorem State.afterHier_mem (r : HierResult) : (s.afterHier r).mem = s.mem := rfl
@[simp] theorem State.afterHier_hier (r : HierResult) : (s.afterHier r).hier = r.hier := rfl
@[simp] theorem State.afterHier_events (r : HierResult) : (s.afterHier r).events = s.events ++ r.events := rfl
@[simp] theorem State.afterHier_status (r : HierResult) : (s.afterHier r).status = s.status := rfl
@[simp] theorem State.afterHier_params (r : HierResult) : (s.afterHier r).params = s.params := rfl

@[simp] theorem State.hierStore_regs (a : Addr) (v : Word) : (s.hierStore a v).regs = s.regs := rfl
@[simp] theorem State.hierStore_pc (a : Addr) (v : Word) : (s.hierStore a v).pc = s.pc := rfl
@[simp] theorem State.hierStore_mem (a : Addr) (v : Word) : (s.hierStore a v).mem = s.mem.write a.toNat v := rfl
@[simp] theorem State.hierStore_hier (a : Addr) (v : Word) : (s.hierStore a v).hier = (s.hier.store s.pc a v).hier := rfl
@[simp] theorem State.hierStore_events (a : Addr) (v : Word) : (s.hierStore a v).events = s.events ++ (s.hier.store s.pc a v).events := rfl
@[simp] theorem State.hierStore_status (a : Addr) (v : Word) : (s.hierStore a v).status = s.status := rfl
@[simp] theorem State.hierStore_params (a : Addr) (v : Word) : (s.hierStore a v).params = s.params := rfl

@[simp] theorem State.withFetchWord_regs (nbits w : Nat) : (s.withFetchWord nbits w).regs = s.regs := rfl
@[simp] theorem State.withFetchWord_pc (nbits w : Nat) : (s.withFetchWord nbits w).pc = s.pc := rfl
@[simp] theorem State.withFetchWord_mem (nbits w : Nat) : (s.withFetchWord nbits w).mem = s.mem.write s.pc.toNat (BitVec.ofNat 16 (w % 2 ^ nbits)) := rfl
@[simp] theorem State.withFetchWord_hier (nbits w : Nat) : (s.withFetchWord nbits w).hier = s.hier := rfl
@[simp] theorem State.withFetchWord_events (nbits w : Nat) : (s.withFetchWord nbits w).events = s.events := rfl
@[simp] theorem State.withFetchWord_status (nbits w : Nat) : (s.withFetchWord nbits w).status = s.status := rfl
@[simp] theorem State.withFetchWord_params (nbits w : Nat) : (s.withFetchWord nbits w).params = s.params := rfl

end

end Sys2Proof.Machine
end

