-- ==== Sys2Proof/Laws/Cache.lean ====
section
/-! SUPPORT. What one `access` of a level, and one load or store through the hierarchy, can do (spec/20_memory.md
R55 to R76): the lemmas later proofs cite instead of unfolding. -/

namespace Sys2Proof.Machine

section level
variable (c : Cache) (a : Addr) (pd : Word) (isWrite : Bool)

/-- Everything a hit does (R58, R61). -/
theorem Cache.access_hit {i : Nat} (h : findSlot (c.row (c.decompose a).row) (c.decompose a).tag = some i) :
    c.access a pd isWrite =
      { cache := { c with
          counter := c.counter + 1
          rows := c.rows.set (c.decompose a).row ((c.row (c.decompose a).row).set i
            ((c.slot (c.decompose a).row i).touch (c.counter + 1) pd isWrite)) }
        row := (c.decompose a).row
        data := some (if isWrite then pd else (c.slot (c.decompose a).row i).data) } := by
  simp [Cache.access, h, Cache.slot, CacheBlock.touch]

/-- Everything a miss does (R59 to R61). -/
theorem Cache.access_miss (h : findSlot (c.row (c.decompose a).row) (c.decompose a).tag = none) :
    c.access a pd isWrite =
      { cache := { c with
          counter := c.counter + 1
          rows := c.rows.set (c.decompose a).row
            ((c.row (c.decompose a).row).set (victimSlot (c.row (c.decompose a).row))
              ((c.slot (c.decompose a).row (victimSlot (c.row (c.decompose a).row))).install
                (c.decompose a).tag (c.counter + 1) pd isWrite)) }
        row := (c.decompose a).row
        data := none } := by
  simp [Cache.access, h, Cache.slot]

/-- Whatever happens, an access rewrites one slot of one row and stamps it with the new counter value. -/
theorem Cache.access_cases : ∃ i b,
    (c.access a pd isWrite).cache =
      { c with
        counter := c.counter + 1
        rows := c.rows.set (c.decompose a).row ((c.row (c.decompose a).row).set i b) } ∧
    b.recency = c.counter + 1 ∧
    ((findSlot (c.row (c.decompose a).row) (c.decompose a).tag = some i ∧
        b = (c.slot (c.decompose a).row i).touch (c.counter + 1) pd isWrite ∧
        (c.access a pd isWrite).data = some b.data) ∨
      (findSlot (c.row (c.decompose a).row) (c.decompose a).tag = none ∧
        i = victimSlot (c.row (c.decompose a).row) ∧
        b = (c.slot (c.decompose a).row i).install (c.decompose a).tag (c.counter + 1) pd isWrite ∧
        (c.access a pd isWrite).data = none)) := by
  cases h : findSlot (c.row (c.decompose a).row) (c.decompose a).tag with
  | some i => exact ⟨i, _, by rw [c.access_hit a pd isWrite h], rfl, .inl ⟨rfl, rfl, by rw [c.access_hit a pd isWrite h]; rfl⟩⟩
  | none => exact ⟨_, _, by rw [c.access_miss a pd isWrite h], rfl, .inr ⟨rfl, rfl, rfl, by rw [c.access_miss a pd isWrite h]⟩⟩

@[simp] theorem Cache.access_geom : (c.access a pd isWrite).cache.geom = c.geom := by
  obtain ⟨i, b, h, -⟩ := c.access_cases a pd isWrite
  rw [h]

/-- The counter advances by exactly one (R56). -/
@[simp] theorem Cache.access_counter : (c.access a pd isWrite).cache.counter = c.counter + 1 := by
  obtain ⟨i, b, h, -⟩ := c.access_cases a pd isWrite
  rw [h]

@[simp] theorem Cache.access_row : (c.access a pd isWrite).row = (c.decompose a).row := by
  cases h : findSlot (c.row (c.decompose a).row) (c.decompose a).tag with
  | some i => rw [c.access_hit a pd isWrite h]
  | none => rw [c.access_miss a pd isWrite h]

@[simp] theorem Cache.access_rows_length : (c.access a pd isWrite).cache.rows.length = c.rows.length := by
  obtain ⟨i, b, h, -⟩ := c.access_cases a pd isWrite
  simp [h]

/-- An access answers data exactly when the row holds the tag (R57, R60). -/
theorem Cache.access_data_isSome :
    (c.access a pd isWrite).data.isSome = (findSlot (c.row (c.decompose a).row) (c.decompose a).tag).isSome := by
  cases h : findSlot (c.row (c.decompose a).row) (c.decompose a).tag with
  | some i => rw [c.access_hit a pd isWrite h]; rfl
  | none => rw [c.access_miss a pd isWrite h]; rfl

/-- The decomposition depends on the geometry alone (R54). -/
@[simp] theorem Cache.decompose_access (b : Addr) :
    (c.access a pd isWrite).cache.decompose b = c.decompose b := by
  simp [Cache.decompose]

end level

/-- Rewriting one slot of one row, read back slot by slot. -/
theorem Cache.slot_set (c : Cache) (n r i r' i' : Nat) (b : CacheBlock) (hr : r < c.rows.length)
    (hi : i < (c.row r).length) :
    Cache.slot { c with counter := n, rows := c.rows.set r ((c.row r).set i b) } r' i' =
      if r' = r ∧ i' = i then b else c.slot r' i' := by
  by_cases h : r' = r
  · subst h
    by_cases h' : i' = i
    · subst h'; simp [Cache.slot, Cache.row, hr] at hi ⊢; simp [hi]
    · have h'' : i ≠ i' := fun e => h' e.symm
      simp [Cache.slot, Cache.row, hr, h', h'']
  · have h'' : r ≠ r' := fun e => h e.symm
    simp [Cache.slot, Cache.row, h, h'']

/-- A found slot lies in its row, is valid and holds the tag (R57). -/
theorem findSlot_spec {row : List CacheBlock} {t i : Nat} (h : findSlot row t = some i) :
    i < row.length ∧ (row.getD i CacheBlock.empty).valid = true ∧ (row.getD i CacheBlock.empty).tag = t := by
  obtain ⟨hi, hp, -⟩ := List.findIdx?_eq_some_iff_getElem.mp h
  simpa [hi] using hp

/-- No slot found: no slot of the row is valid with the tag (R57). -/
theorem findSlot_none {row : List CacheBlock} {t : Nat} (h : findSlot row t = none) (i : Nat) :
    (row.getD i CacheBlock.empty).valid = true → (row.getD i CacheBlock.empty).tag ≠ t := by
  by_cases hi : i < row.length
  · have := List.findIdx?_eq_none_iff.mp h row[i] (List.getElem_mem hi)
    simpa [hi] using this
  · simp [Nat.le_of_not_lt hi, CacheBlock.empty]

theorem minRecency_mem {row : List CacheBlock} (h : row ≠ []) : ∃ b ∈ row, b.recency = minRecency row := by
  have hne : row.map (·.recency) ≠ [] := by simpa using h
  obtain ⟨m, hm⟩ := Option.isSome_iff_exists.mp (List.isSome_min?_of_ne_nil hne)
  have := List.min?_mem hm
  simpa [minRecency, hm] using this

theorem minRecency_le {row : List CacheBlock} {b : CacheBlock} (h : b ∈ row) : minRecency row ≤ b.recency := by
  have hb : b.recency ∈ row.map (·.recency) := List.mem_map_of_mem h
  obtain ⟨m, hm⟩ := Option.isSome_iff_exists.mp (List.isSome_min?_of_mem hb)
  simpa [minRecency, hm] using (List.min?_eq_some_iff.mp hm).2 _ hb

/-- The victim lies in its row (R59). -/
theorem victimSlot_lt {row : List CacheBlock} (h : row ≠ []) : victimSlot row < row.length := by
  obtain ⟨b, hb, he⟩ := minRecency_mem h
  exact List.findIdx_lt_length_of_exists ⟨b, hb, by simp [he]⟩

/-- The victim's recency is the smallest of its row (R59). -/
theorem victimSlot_recency {row : List CacheBlock} (h : row ≠ []) :
    (row.getD (victimSlot row) CacheBlock.empty).recency = minRecency row := by
  have hv := victimSlot_lt h
  have := @List.findIdx_getElem _ (fun b : CacheBlock => b.recency == minRecency row) row hv
  rw [List.getD_eq_getElem _ _ hv]
  exact beq_iff_eq.mp this

/-- A valid geometry has at least one slot in a row and at least one row (R9). -/
theorem geometry_valid_pos {g : Geometry} (h : g.valid = true) :
    0 < g.associativity ∧ 0 < g.blocksize ∧ 0 < g.numRows := by
  have pos : ∀ n, isPow2 n = true → 0 < n := fun n hn => by
    have := beq_iff_eq.mp hn
    rw [this]; exact Nat.two_pow_pos _
  simp only [Geometry.valid, Bool.and_eq_true] at h
  exact ⟨pos _ h.1.1.2, pos _ h.1.2, pos _ h.2⟩

/-- A power of two, as its own logarithm's power. -/
theorem isPow2_eq {n : Nat} (h : isPow2 n = true) : n = 2 ^ Nat.log2 n := beq_iff_eq.mp h

/-- An address of a well-shaped level reaches one of its rows (R55). -/
theorem Cache.Shape.row_lt {c : Cache} (h : c.Shape) (a : Addr) : (c.decompose a).row < c.rows.length := by
  have hp := (geometry_valid_pos h.1).2.2
  rw [h.2.1]
  exact Nat.lt_of_le_of_lt Nat.and_le_right (Nat.sub_lt hp Nat.one_pos)

/-- A row of a well-shaped level has `associativity` slots (R32). -/
theorem Cache.Shape.row_length {c : Cache} (h : c.Shape) {r : Nat} (hr : r < c.rows.length) :
    (c.row r).length = c.geom.associativity := by
  have : c.row r = c.rows[r] := by simp [Cache.row, hr]
  rw [this]; exact h.2.2 _ (List.getElem_mem hr)

/-- A level with every row as its geometry says: a valid slot is one of its slots (R32). -/
theorem Cache.Shape.valid_lt {c : Cache} (h : c.Shape) {r i : Nat} (hv : (c.slot r i).valid = true) :
    r < c.rows.length ∧ i < c.geom.associativity := by
  by_cases hr : r < c.rows.length
  · refine ⟨hr, Nat.lt_of_not_le fun hi => ?_⟩
    rw [← h.row_length hr] at hi
    simp [Cache.slot, hi, CacheBlock.empty] at hv
  · have e : c.row r = [] := by simp [Cache.row, Nat.le_of_not_lt hr]
    simp [Cache.slot, e, CacheBlock.empty] at hv

/-- A row of a well-shaped level is not empty (R9, R32). -/
theorem Cache.Shape.row_ne_nil {c : Cache} (h : c.Shape) {r : Nat} (hr : r < c.rows.length) : c.row r ≠ [] := by
  intro e
  have hl := h.row_length hr
  have hp := (geometry_valid_pos h.1).1
  rw [e] at hl
  exact absurd hl (Nat.ne_of_lt hp)

/-- The slot an access rewrites, read back slot by slot. -/
theorem Cache.Shape.slot_rewrite {c : Cache} (h : c.Shape) (a : Addr) {i : Nat} (hi : i < c.geom.associativity)
    (n : Nat) (b : CacheBlock) (r' i' : Nat) :
    Cache.slot { c with counter := n, rows := c.rows.set (c.decompose a).row ((c.row (c.decompose a).row).set i b) }
        r' i' =
      if r' = (c.decompose a).row ∧ i' = i then b else c.slot r' i' :=
  c.slot_set n _ i r' i' b (h.row_lt a) (by rw [h.row_length (h.row_lt a)]; exact hi)

/-- The victim is one of its row's slots (R59). -/
theorem Cache.Shape.victim_lt {c : Cache} (h : c.Shape) {r : Nat} (hr : r < c.rows.length) :
    victimSlot (c.row r) < c.geom.associativity := by
  rw [← h.row_length hr]; exact victimSlot_lt (h.row_ne_nil hr)

/-- The victim's recency is no larger than any other slot's of its row (R59). -/
theorem Cache.Shape.victim_le {c : Cache} (h : c.Shape) {r j : Nat} (hr : r < c.rows.length)
    (hj : j < c.geom.associativity) :
    (c.slot r (victimSlot (c.row r))).recency ≤ (c.slot r j).recency := by
  have hl : j < (c.row r).length := by rw [h.row_length hr]; exact hj
  rw [Cache.slot, victimSlot_recency (h.row_ne_nil hr), Cache.slot, List.getD_eq_getElem _ _ hl]
  exact minRecency_le (List.getElem_mem hl)

/-- A slot before the victim has a larger recency: ties go to the lowest index (R59). -/
theorem Cache.Shape.victim_lt_of_lt {c : Cache} (h : c.Shape) {r j : Nat} (hr : r < c.rows.length)
    (hj : j < victimSlot (c.row r)) :
    (c.slot r (victimSlot (c.row r))).recency < (c.slot r j).recency := by
  have ha := Nat.lt_trans hj (h.victim_lt hr)
  have hl : j < (c.row r).length := by rw [h.row_length hr]; exact ha
  refine Nat.lt_of_le_of_ne (h.victim_le hr ha) fun e => ?_
  rw [Cache.slot, victimSlot_recency (h.row_ne_nil hr), Cache.slot, List.getD_eq_getElem _ _ hl] at e
  have := List.not_of_lt_findIdx (p := fun b : CacheBlock => b.recency == minRecency (c.row r)) hj
  simp [e] at this

/-- The least valid slot with the tag is the one lookup finds (R57, R61). -/
theorem Cache.findSlot_eq_some {c : Cache} {a : Addr} {i : Nat}
    (hv : (c.slot (c.decompose a).row i).valid = true) (ht : (c.slot (c.decompose a).row i).tag = (c.decompose a).tag)
    (hl : ∀ j < i, (c.slot (c.decompose a).row j).valid = true →
      (c.slot (c.decompose a).row j).tag ≠ (c.decompose a).tag) :
    findSlot (c.row (c.decompose a).row) (c.decompose a).tag = some i := by
  cases hf : findSlot (c.row (c.decompose a).row) (c.decompose a).tag with
  | none => exact absurd ht (findSlot_none hf i hv)
  | some k =>
    obtain ⟨h1, h2, h3⟩ := findSlot_spec hf
    rcases Nat.lt_trichotomy k i with h | h | h
    · exact absurd h3 (hl k h h2)
    · rw [h]
    · have hn := (List.findIdx?_eq_some_iff_getElem.mp hf).2.2 i h
      have hil : i < (c.row (c.decompose a).row).length := Nat.lt_trans h h1
      rw [Cache.slot, List.getD_eq_getElem _ _ hil] at hv ht
      simp [hv, ht] at hn

/-- Lookup finds nothing exactly when the row lacks the tag (R57). -/
theorem Cache.findSlot_eq_none_iff {c : Cache} {a : Addr} :
    findSlot (c.row (c.decompose a).row) (c.decompose a).tag = none ↔ c.Lacks a := by
  refine ⟨fun h => findSlot_none h, fun h => ?_⟩
  cases hf : findSlot (c.row (c.decompose a).row) (c.decompose a).tag with
  | none => rfl
  | some k => exact absurd (findSlot_spec hf).2.2 (h k (findSlot_spec hf).2.1)

/-- A probe is a read access, a fill a write access (R55). -/
@[simp] theorem Cache.probe_eq (c : Cache) (a : Addr) : c.probe a = c.access a 0#16 false := rfl
@[simp] theorem Cache.fill_eq (c : Cache) (a : Addr) (v : Word) : c.fill a v = c.access a v true := rfl

section hierarchy
variable (pc a : Addr) (m v : Word)

/-- With no cache a load is a memory read and emits nothing (R69). -/
@[simp] theorem Hierarchy.load_none :
    Hierarchy.none.load pc a m = { hier := .none, events := [], value := m } := rfl

/-- With no cache a store changes no cache and emits nothing (R69). -/
@[simp] theorem Hierarchy.store_none :
    Hierarchy.none.store pc a v = { hier := .none, events := [], value := v } := rfl

/-- An access keeps the configuration (R67). -/
@[simp] theorem Hierarchy.load_config (h : Hierarchy) : (h.load pc a m).hier.config = h.config := by
  cases h with
  | none => rfl
  | l1 c1 => simp only [Hierarchy.load]; split <;> simp [Hierarchy.config]
  | l1l2 c1 c2 =>
    simp only [Hierarchy.load]
    split
    · simp [Hierarchy.config]
    · simp only [loadFromL2, Hierarchy.config]; split <;> simp

@[simp] theorem Hierarchy.store_config (h : Hierarchy) : (h.store pc a v).hier.config = h.config := by
  cases h <;> simp [Hierarchy.store, Hierarchy.config]

end hierarchy

end Sys2Proof.Machine
end

