-- ==== Sys2Proof/Laws/Launch.lean ====
section
/-! SUPPORT. The caches a launch builds (spec/10_state.md R43). -/

namespace Sys2Proof.Machine

/-- Every slot of a level at reset is the empty one (R43). -/
@[simp] theorem Cache.empty_slot (g : Geometry) (r i : Nat) : (Cache.empty g).slot r i = CacheBlock.empty := by
  by_cases hr : r < g.numRows
  · by_cases hi : i < g.associativity <;> simp [Cache.slot, Cache.row, Cache.empty, hr, hi]
  · simp [Cache.slot, Cache.row, Cache.empty, hr]

@[simp] theorem Cache.empty_geom (g : Geometry) : (Cache.empty g).geom = g := rfl
@[simp] theorem Cache.empty_counter (g : Geometry) : (Cache.empty g).counter = 0 := rfl

/-- The hierarchy at reset has the launch's configuration (R67). -/
@[simp] theorem Hierarchy.empty_config (config : CacheConfig) : (Hierarchy.empty config).config = config := by
  cases config <;> rfl

end Sys2Proof.Machine
end

