-- ==== Sys2Proof/Laws/Memory.lean ====
section
/-! SUPPORT. Memory: a read after a write, and the canonical form kept by every operation (spec/20_memory.md R49, R50). -/

namespace Sys2Proof.Machine

/-- An address below every listed one is not listed. -/
theorem Memory.read_of_lt {m : Memory} {a : Nat} (h : ∀ c ∈ m, a < c.1) : m.read a = 0#16 := by
  induction m with
  | nil => rfl
  | cons c m ih =>
    have hc : c.1 ≠ a := Nat.ne_of_gt (h c (by simp))
    simp only [Memory.read, hc, if_false]
    exact ih fun d hd => h d (by simp [hd])

theorem Memory.read_erase {m : Memory} (h : m.Pairwise (fun x y => x.1 < y.1)) (a b : Nat) :
    (m.erase a).read b = if a = b then 0#16 else m.read b := by
  induction m with
  | nil => simp [Memory.erase, Memory.read]
  | cons c m ih =>
    obtain ⟨hc, hm⟩ := List.pairwise_cons.mp h
    by_cases hk : c.1 = a
    · subst hk
      by_cases hb : c.1 = b
      · subst hb; simp [Memory.erase, Memory.read_of_lt hc]
      · simp [Memory.erase, Memory.read, hb]
    · by_cases hb : c.1 = b
      · subst hb; simp [Memory.erase, Memory.read, hk, Ne.symm hk]
      · simp [Memory.erase, Memory.read, hk, hb, ih hm]

theorem Memory.read_insert (m : Memory) (a b : Nat) (v : Word) :
    (m.insert a v).read b = if a = b then v else m.read b := by
  induction m with
  | nil => simp [Memory.insert, Memory.read]
  | cons c m ih =>
    simp only [Memory.insert]
    split
    · simp [Memory.read]
    · split
      · rename_i h; subst h; by_cases hb : c.1 = b <;> simp [Memory.read, hb]
      · rename_i h
        by_cases hb : c.1 = b
        · simp [Memory.read, hb, show a ≠ b from hb ▸ h]
        · simp [Memory.read, hb, ih]

/-- Everything a write does: the written address reads the value, every other reads as before. -/
theorem Memory.read_write {m : Memory} (h : m.wf) (a b : Nat) (v : Word) :
    (m.write a v).read b = if a = b then v else m.read b := by
  unfold Memory.write
  split
  · rename_i hv; subst hv; exact Memory.read_erase h.1 a b
  · exact Memory.read_insert m a b v

theorem Memory.mem_erase {m : Memory} {a : Nat} {c : Nat × Word} (h : c ∈ m.erase a) : c ∈ m := by
  induction m with
  | nil => exact h
  | cons d m ih =>
    simp only [Memory.erase] at h
    split at h
    · simp [h]
    · rcases List.mem_cons.mp h with h | h
      · simp [h]
      · simp [ih h]

theorem Memory.mem_insert {m : Memory} {a : Nat} {v : Word} {c : Nat × Word} (h : c ∈ m.insert a v) :
    c = (a, v) ∨ c ∈ m := by
  induction m with
  | nil => simpa [Memory.insert] using h
  | cons d m ih =>
    simp only [Memory.insert] at h
    split at h
    · simpa using h
    · split at h
      · rcases List.mem_cons.mp h with h | h
        · exact .inl h
        · exact .inr (by simp [h])
      · rcases List.mem_cons.mp h with h | h
        · exact .inr (by simp [h])
        · rcases ih h with h | h
          · exact .inl h
          · exact .inr (by simp [h])

theorem Memory.erase_rising {m : Memory} (h : m.Pairwise (fun x y => x.1 < y.1)) (a : Nat) :
    (m.erase a).Pairwise (fun x y => x.1 < y.1) := by
  induction m with
  | nil => exact h
  | cons d m ih =>
    obtain ⟨hd, hm⟩ := List.pairwise_cons.mp h
    simp only [Memory.erase]
    split
    · exact hm
    · exact List.pairwise_cons.mpr ⟨fun c hc => hd c (Memory.mem_erase hc), ih hm⟩

theorem Memory.insert_rising {m : Memory} (h : m.Pairwise (fun x y => x.1 < y.1)) (a : Nat) (v : Word) :
    (m.insert a v).Pairwise (fun x y => x.1 < y.1) := by
  induction m with
  | nil => simp [Memory.insert]
  | cons d m ih =>
    obtain ⟨hd, hm⟩ := List.pairwise_cons.mp h
    simp only [Memory.insert]
    split
    · rename_i hlt
      refine List.pairwise_cons.mpr ⟨fun c hc => ?_, h⟩
      rcases List.mem_cons.mp hc with hc | hc
      · simpa [hc] using hlt
      · exact Nat.lt_trans hlt (hd c hc)
    · split
      · rename_i heq
        exact List.pairwise_cons.mpr ⟨fun c hc => by simpa [heq] using hd c hc, hm⟩
      · rename_i hnlt hne
        refine List.pairwise_cons.mpr ⟨fun c hc => ?_, ih hm⟩
        rcases Memory.mem_insert hc with hc | hc
        · subst hc; exact Nat.lt_of_le_of_ne (Nat.le_of_not_lt hnlt) (Ne.symm hne)
        · exact hd c hc

/-- A write keeps the canonical form. -/
theorem Memory.write_wf {m : Memory} (h : m.wf) {a : Nat} (ha : a < memSize) (v : Word) : (m.write a v).wf := by
  unfold Memory.write
  split
  · exact ⟨Memory.erase_rising h.1 a, fun c hc => h.2 c (Memory.mem_erase hc)⟩
  · rename_i hv
    refine ⟨Memory.insert_rising h.1 a v, fun c hc => ?_⟩
    rcases Memory.mem_insert hc with hc | hc
    · subst hc; exact ⟨ha, hv⟩
    · exact h.2 c hc

variable (s : State)

/-- Memory at reset is in canonical form. -/
theorem State.reset_mem_wf : State.reset.mem.wf := by decide

/-- `MemWrite` keeps the canonical form. -/
theorem State.writeMem_wf (h : s.mem.wf) (a : Addr) (v : Word) : (s.writeMem a v).mem.wf :=
  Memory.write_wf h a.isLt v

/-- `HierStore` keeps the canonical form. -/
theorem State.hierStore_wf (h : s.mem.wf) (a : Addr) (v : Word) : (s.hierStore a v).mem.wf :=
  Memory.write_wf h a.isLt v

/-- Everything `MemWrite` does to the words of memory (R49, R50). -/
theorem State.readMem_writeMem (h : s.mem.wf) (a b : Addr) (v : Word) :
    (s.writeMem a v).readMem b = if b = a then v else s.readMem b := by
  have e : (a.toNat = b.toNat) = (b = a) := propext ⟨fun h => (BitVec.eq_of_toNat_eq h).symm, fun h => by rw [h]⟩
  simp [State.readMem, Memory.read_write h, e]

/-- `HierStore` writes memory as `MemWrite` does (R75). -/
@[simp] theorem State.readMem_hierStore (a b : Addr) (v : Word) :
    (s.hierStore a v).readMem b = (s.writeMem a v).readMem b := rfl

@[simp] theorem State.readMem_writeReg (a : Addr) (r : Reg) (v : Word) :
    (s.writeReg r v).readMem a = s.readMem a := rfl
@[simp] theorem State.readMem_setPc (a t : Addr) : (s.setPc t).readMem a = s.readMem a := rfl
@[simp] theorem State.readMem_advance (a : Addr) : s.advance.readMem a = s.readMem a := rfl
@[simp] theorem State.readMem_retire (a : Addr) (d : Reg) (v : Word) : (s.retire d v).readMem a = s.readMem a := rfl
@[simp] theorem State.readMem_emit (a : Addr) (es : List CacheEvent) : (s.emit es).readMem a = s.readMem a := rfl
@[simp] theorem State.readMem_halt (a : Addr) : s.halt.readMem a = s.readMem a := rfl
@[simp] theorem State.readMem_raiseDecodeError (a : Addr) (w : Word) :
    (s.raiseDecodeError w).readMem a = s.readMem a := rfl
@[simp] theorem State.readMem_afterHier (a : Addr) (h : HierResult) : (s.afterHier h).readMem a = s.readMem a := rfl

end Sys2Proof.Machine
end

