-- ==== Sys2Proof/Laws/PerInstr.lean ====
section
/-! SUPPORT. Statements about every instruction, one lemma per constructor. -/

namespace Sys2Proof.Laws

/-- The mask of an instruction's row in spec/opcode_table.json. -/
def tableMask : Instr → Word
  | .add _ _ _ => 0xE00F#16
  | .sub _ _ _ => 0xE00F#16
  | .or _ _ _ => 0xE00F#16
  | .and _ _ _ => 0xE00F#16
  | .slt _ _ _ => 0xE00F#16
  | .jr _ => 0xE00F#16
  | .addi _ _ _ => 0xE000#16
  | .j _ => 0xE000#16
  | .jal _ => 0xE000#16
  | .lw _ _ _ => 0xE000#16
  | .sw _ _ _ => 0xE000#16
  | .jeq _ _ _ => 0xE000#16
  | .slti _ _ _ => 0xE000#16

/-- The match value of an instruction's row in spec/opcode_table.json. -/
def tableMatch : Instr → Word
  | .add _ _ _ => 0x0000#16
  | .sub _ _ _ => 0x0001#16
  | .or _ _ _ => 0x0002#16
  | .and _ _ _ => 0x0003#16
  | .slt _ _ _ => 0x0004#16
  | .jr _ => 0x0008#16
  | .addi _ _ _ => 0x2000#16
  | .j _ => 0x4000#16
  | .jal _ => 0x6000#16
  | .lw _ _ _ => 0x8000#16
  | .sw _ _ _ => 0xA000#16
  | .jeq _ _ _ => 0xC000#16
  | .slti _ _ _ => 0xE000#16

theorem encodeRRR_masked (a b d : Reg) (f : BitVec 4) :
    encodeRRR a b d f &&& 0xE00F#16 = f.setWidth 16 := by
  apply BitVec.eq_of_getLsbD_eq
  intro i hi
  simp only [encodeRRR, BitVec.getLsbD_and, BitVec.getLsbD_append, BitVec.getLsbD_setWidth]
  interval_cases i <;> simp

theorem encodeRRI_masked (op : BitVec 3) (a b : Reg) (i7 : BitVec 7) :
    encodeRRI op a b i7 &&& 0xE000#16 = op.setWidth 16 <<< 13 := by
  apply BitVec.eq_of_getLsbD_eq
  intro i hi
  simp only [encodeRRI, BitVec.getLsbD_and, BitVec.getLsbD_append, BitVec.getLsbD_setWidth, BitVec.getLsbD_shiftLeft]
  interval_cases i <;> simp

theorem encodeI13_masked (op : BitVec 3) (t : Addr) :
    encodeI13 op t &&& 0xE000#16 = op.setWidth 16 <<< 13 := by
  apply BitVec.eq_of_getLsbD_eq
  intro i hi
  simp only [encodeI13, BitVec.getLsbD_and, BitVec.getLsbD_append, BitVec.getLsbD_setWidth, BitVec.getLsbD_shiftLeft]
  interval_cases i <;> simp

namespace EncodeMatchesTable

/-- The encoder's word carries the fixed bits of the instruction's own row of spec/opcode_table.json. -/
def Statement (i : Instr) : Prop := encode i &&& tableMask i = tableMatch i

theorem add (d a b : Reg) : Statement (.add d a b) := encodeRRR_masked a b d _
theorem sub (d a b : Reg) : Statement (.sub d a b) := encodeRRR_masked a b d _
theorem or (d a b : Reg) : Statement (.or d a b) := encodeRRR_masked a b d _
theorem and (d a b : Reg) : Statement (.and d a b) := encodeRRR_masked a b d _
theorem slt (d a b : Reg) : Statement (.slt d a b) := encodeRRR_masked a b d _
theorem jr (a : Reg) : Statement (.jr a) := encodeRRR_masked a _ _ _
theorem addi (d a : Reg) (imm7 : BitVec 7) : Statement (.addi d a imm7) := encodeRRI_masked _ a d imm7
theorem j (imm13 : Addr) : Statement (.j imm13) := encodeI13_masked _ imm13
theorem jal (imm13 : Addr) : Statement (.jal imm13) := encodeI13_masked _ imm13
theorem lw (d a : Reg) (imm7 : BitVec 7) : Statement (.lw d a imm7) := encodeRRI_masked _ a d imm7
theorem sw (src a : Reg) (imm7 : BitVec 7) : Statement (.sw src a imm7) := encodeRRI_masked _ a src imm7
theorem jeq (a b : Reg) (imm7 : BitVec 7) : Statement (.jeq a b imm7) := encodeRRI_masked _ a b imm7
theorem slti (d a : Reg) (imm7 : BitVec 7) : Statement (.slti d a imm7) := encodeRRI_masked _ a d imm7

end EncodeMatchesTable

end Sys2Proof.Laws
end

