-- ==== Sys2Proof/Laws/Registers.lean ====
section
/-! SUPPORT. Reading registers after an update (spec/10_state.md R21). -/

namespace Sys2Proof.Machine

variable (s : State)

@[simp] theorem State.readReg_zero : s.readReg 0#3 = 0#16 := rfl

/-- A write to register 0 changes nothing (R21). -/
@[simp] theorem State.writeReg_zero (v : Word) : s.writeReg 0#3 v = s := rfl

/-- Everything a register write does to the registers. -/
theorem State.readReg_writeReg (d r : Reg) (v : Word) :
    (s.writeReg d v).readReg r = if d ≠ 0#3 ∧ r = d then v else s.readReg r := by
  by_cases hr : r = 0#3
  · subst hr
    have h : ¬(d ≠ 0#3 ∧ 0#3 = d) := fun h => h.1 h.2.symm
    rw [if_neg h]; rfl
  · by_cases hd : d = 0#3
    · subst hd; simp
    · by_cases h : r = d
      · subst h; simp [State.readReg, hr]
      · have h' : d.toNat ≠ r.toNat := fun e => h (BitVec.eq_of_toNat_eq e.symm)
        simp [State.readReg, hr, hd, h, h']

/-- The destination holds what was written, unless it is register 0. -/
theorem State.readReg_writeReg_self (d : Reg) (v : Word) (hd : d ≠ 0#3) : (s.writeReg d v).readReg d = v := by
  simp [State.readReg_writeReg, hd]

/-- Every other register is as before. -/
theorem State.readReg_writeReg_ne (d r : Reg) (v : Word) (h : r ≠ d) :
    (s.writeReg d v).readReg r = s.readReg r := by
  simp [State.readReg_writeReg, h]

@[simp] theorem State.readReg_writeMem (r : Reg) (a : Addr) (v : Word) :
    (s.writeMem a v).readReg r = s.readReg r := rfl
@[simp] theorem State.readReg_setPc (r : Reg) (t : Addr) : (s.setPc t).readReg r = s.readReg r := rfl
@[simp] theorem State.readReg_advance (r : Reg) : s.advance.readReg r = s.readReg r := rfl
@[simp] theorem State.readReg_retire (d r : Reg) (v : Word) :
    (s.retire d v).readReg r = (s.writeReg d v).readReg r := rfl
@[simp] theorem State.readReg_emit (r : Reg) (es : List CacheEvent) : (s.emit es).readReg r = s.readReg r := rfl
@[simp] theorem State.readReg_halt (r : Reg) : s.halt.readReg r = s.readReg r := rfl
@[simp] theorem State.readReg_raiseDecodeError (r : Reg) (w : Word) :
    (s.raiseDecodeError w).readReg r = s.readReg r := rfl
@[simp] theorem State.readReg_afterHier (r : Reg) (h : HierResult) : (s.afterHier h).readReg r = s.readReg r := rfl
@[simp] theorem State.readReg_hierStore (r : Reg) (a : Addr) (v : Word) :
    (s.hierStore a v).readReg r = s.readReg r := rfl

/-- No register write touches the stored register 0 (R21). -/
theorem State.writeReg_regs_zero (d : Reg) (v : Word) : (s.writeReg d v).regs[0] = s.regs[0] := by
  by_cases hd : d = 0#3
  · subst hd; rfl
  · have h : d.toNat ≠ 0 := fun e => hd (BitVec.eq_of_toNat_eq e)
    simp [hd, h]

end Sys2Proof.Machine
end

