-- ==== Sys2Proof/Laws/Step.lean ====
section
/-! SUPPORT. What one step, and one launch, can do (spec/70_reset_and_hazards.md R230, R231). -/

namespace Sys2Proof.Machine

/-- Everything a step that answers a next state can have done. -/
theorem step_cases {s t : State} (h : step s = .next t) :
    s.status = .running ∧
      ((∃ i, s.decodeFetched = .ok i ∧ exec i s = .next t) ∨
        (∃ e, s.decodeFetched = .error e) ∧ t = s.raiseDecodeError s.fetch) := by
  unfold step at h
  split at h
  · cases h
  · cases h
  · rename_i hr
    refine ⟨hr, ?_⟩
    split at h
    · rename_i i hi; exact .inl ⟨i, hi, h⟩
    · rename_i e he; injection h with h; exact .inr ⟨⟨e, he⟩, h.symm⟩

/-- A running core with a legal word at its pc: the step is that instruction's meaning. -/
theorem step_of_ok {s : State} {i : Instr} (hr : s.status = .running) (hi : s.decodeFetched = .ok i) :
    step s = exec i s := by simp [step, hr, hi]

/-- A running core with an illegal word at its pc takes DecodeError. -/
theorem step_of_error {s : State} {e : DecodeRefusal} (hr : s.status = .running) (he : s.decodeFetched = .error e) :
    step s = .next (s.raiseDecodeError s.fetch) := by simp [step, hr, he]

/-- Everything a launch that succeeds has checked and built. -/
theorem launch_cases {config : CacheConfig} {params : Params} {mode : RegReset} {seed : Nat} {image : List Word}
    {s : State} (h : launch config params mode seed image = .ok s) :
    config.valid = true ∧ imageFits image = true ∧
      s = { regs := resetRegs mode seed, pc := 0#13, mem := Memory.ofImage 0 image, hier := Hierarchy.empty config,
            events := [], status := .running, params := params } := by
  unfold launch at h
  split at h
  · cases h
  · split at h
    · cases h
    · rename_i hc hi
      injection h with h
      exact ⟨by simpa using hc, by simpa using hi, h.symm⟩

end Sys2Proof.Machine
end

