-- ==== Sys2Proof/Machine/Run.lean ====
section
/-! DEFINITION. A run of the core: the loop of steps under fuel, its ends, and a hang
(spec/70_reset_and_hazards.md R235, R236). -/

namespace Sys2Proof.Machine

/-- What a run under fuel answers. Out of fuel is kept apart from the ends of a run (R236). -/
inductive RunResult where
  /-- a successful end: the final state is exposed (R38, R152, R235) -/
  | halted (final : State)
  /-- a failed end: DecodeError, with the pc and the word it recorded (R203, R235) -/
  | faulted (pc : Addr) (word : Word) (final : State)
  /-- no end of the run: the fuel is used up and the core could step on (R236) -/
  | outOfFuel (reached : State)
  /-- an instruction without a meaning: no step of this model answers so (R205) -/
  | refused (reason : Refusal) (reached : State)
  deriving DecidableEq, Repr

/-- The loop of R231 and R235 from `s`, for at most `fuel` steps; the step that halts or faults is one of them
(log 28). -/
def run (fuel : Nat) (s : State) : RunResult :=
  match step s with
  | .fault .coreHalted => .halted s
  | .fault (.coreFaulted pc word) => .faulted pc word s
  | .refused reason => .refused reason s
  | .next t =>
    match fuel with
    | 0 => .outOfFuel s
    | fuel + 1 => run fuel t

/-- A hang (R236): an infinite run, so that no amount of fuel brings it to an end. -/
def State.Hangs (s : State) : Prop := ∀ fuel, ∃ t, run fuel s = .outOfFuel t

end Sys2Proof.Machine
end

