-- ==== Sys2Proof/Laws/Run.lean ====
section
/-! SUPPORT. What a run under fuel can answer, and the runs R236 calls hangs: the self-loops other than `j`, and zero
memory. -/

namespace Sys2Proof.Machine

theorem run_of_halted {s : State} (h : s.status = .halted) (fuel : Nat) : run fuel s = .halted s := by
  unfold run; simp [step, h]

theorem run_of_faulted {s : State} {pc : Addr} {word : Word} (h : s.status = .faulted pc word) (fuel : Nat) :
    run fuel s = .faulted pc word s := by
  unfold run; simp [step, h]

theorem run_zero_of_next {s t : State} (h : step s = .next t) : run 0 s = .outOfFuel s := by
  unfold run; simp [h]

theorem run_succ_of_next {s t : State} (h : step s = .next t) (fuel : Nat) : run (fuel + 1) s = run fuel t := by
  conv_lhs => unfold run
  simp [h]

/-- The step of a running core answers a next state: no instruction stops (R205). -/
theorem step_of_running {s : State} (h : s.status = .running) : ∃ t, step s = .next t := by
  cases hd : s.decodeFetched with
  | error e => exact ⟨_, step_of_error h hd⟩
  | ok i =>
    rw [step_of_ok h hd]
    cases i
    case j imm13 => simp only [exec, execJ]; split <;> exact ⟨_, rfl⟩
    case jeq a b imm7 => simp only [exec, execJeq]; split <;> exact ⟨_, rfl⟩
    all_goals exact ⟨_, rfl⟩

/-- Everything a run can answer: an end whose final state has that status, or a running state out of fuel. -/
theorem run_cases (fuel : Nat) (s : State) :
    (∃ t, run fuel s = .halted t ∧ t.status = .halted) ∨
      (∃ pc word t, run fuel s = .faulted pc word t ∧ t.status = .faulted pc word) ∨
      ∃ t, run fuel s = .outOfFuel t ∧ t.status = .running := by
  induction fuel generalizing s with
  | zero =>
    cases h : s.status with
    | halted => exact .inl ⟨s, run_of_halted h 0, h⟩
    | faulted pc word => exact .inr (.inl ⟨pc, word, s, run_of_faulted h 0, h⟩)
    | running =>
      obtain ⟨t, ht⟩ := step_of_running h
      exact .inr (.inr ⟨s, run_zero_of_next ht, h⟩)
  | succ fuel ih =>
    cases h : s.status with
    | halted => exact .inl ⟨s, run_of_halted h _, h⟩
    | faulted pc word => exact .inr (.inl ⟨pc, word, s, run_of_faulted h _, h⟩)
    | running =>
      obtain ⟨t, ht⟩ := step_of_running h
      rw [run_succ_of_next ht]
      exact ih t

/-- A property that keeps the core running and that every step keeps makes a run a hang. -/
theorem hangs_of_kept {P : State → Prop} (running : ∀ s, P s → s.status = .running)
    (kept : ∀ s t, P s → step s = .next t → P t) {s : State} (h : P s) : s.Hangs := by
  intro fuel
  induction fuel generalizing s with
  | zero =>
    obtain ⟨t, ht⟩ := step_of_running (running s h)
    exact ⟨s, run_zero_of_next ht⟩
  | succ fuel ih =>
    obtain ⟨t, ht⟩ := step_of_running (running s h)
    rw [run_succ_of_next ht]
    exact ih (kept s t h ht)

/-- A `jal` to its own address hangs (R153, R157; D19, log 20). -/
theorem jal_self_hangs {s : State} (hr : s.status = .running) (hi : s.decodeFetched = .ok (.jal s.pc)) : s.Hangs := by
  refine hangs_of_kept (P := fun s => s.status = .running ∧ s.decodeFetched = .ok (.jal s.pc)) (fun _ h => h.1) ?_
    ⟨hr, hi⟩
  rintro s t ⟨hr, hi⟩ h
  rw [step_of_ok hr hi] at h
  injection h with h
  subst h
  exact ⟨hr, hi⟩

/-- A `jr` to its own address hangs (R153, R159; D19, log 20). -/
theorem jr_self_hangs {s : State} {a : Reg} (hr : s.status = .running) (hi : s.decodeFetched = .ok (.jr a))
    (ht : registerTarget (s.readReg a) = s.pc) : s.Hangs := by
  refine hangs_of_kept (P := fun u => u = s) (fun u h => h ▸ hr) ?_ rfl
  rintro u t rfl h
  rw [step_of_ok hr hi] at h
  injection h with h
  rw [← h, ht]; rfl

/-- A taken `jeq` with displacement -1 hangs (R153, R163; D19, log 20). -/
theorem jeq_self_hangs {s : State} {a b : Reg} (hr : s.status = .running)
    (hi : s.decodeFetched = .ok (.jeq a b 0x7F#7)) (he : s.readReg a = s.readReg b) : s.Hangs := by
  refine hangs_of_kept (P := fun u => u = s) (fun u h => h ▸ hr) ?_ rfl
  rintro u t rfl h
  rw [step_of_ok hr hi] at h
  simp only [exec, execJeq, he, if_true] at h
  injection h with h
  have hb : branchTarget u.pc 0x7F#7 = u.pc := by
    apply BitVec.eq_of_toNat_eq
    have := u.pc.isLt
    simp [branchTarget, wrap13, sext7]
  rw [← h, hb]; rfl

/-- A run that falls through zero-filled memory hangs (R112, R236). -/
theorem zero_memory_hangs {s : State} (hr : s.status = .running) (hm : s.mem = []) : s.Hangs := by
  refine hangs_of_kept (P := fun s => s.status = .running ∧ s.mem = []) (fun _ h => h.1) ?_ ⟨hr, hm⟩
  rintro s t ⟨hr, hm⟩ h
  have hf : s.fetch = 0#16 := by rw [State.fetch, State.readMem, hm]; rfl
  have hi : s.decodeFetched = .ok (.add 0#3 0#3 0#3) := by
    rw [State.decodeFetched, hf]; cases s.params.jrUnusedBits <;> decide
  rw [step_of_ok hr hi] at h
  injection h with h
  subst h
  exact ⟨hr, hm⟩

end Sys2Proof.Machine
end

