-- ==== Sys2Proof/Tests/Slice0.lean ====
section
/-! SUPPORT. Tests: expected results are the spec's (95_test_vectors.md and the tables of the rules cited), and a named
witness for the hypotheses of each statement that has some. -/

namespace Sys2Proof.Tests

open Sys2Proof.Machine

/- ### The launch checks refuse ill-formed terms (W4, R9, R202) -/

theorem test_geometry_8_1_1 : (Geometry.mk 8 1 1).valid = true ∧ (Geometry.mk 8 1 1).numRows = 8 := by decide
theorem test_geometry_16_2_2 : (Geometry.mk 16 2 2).valid = true ∧ (Geometry.mk 16 2 2).numRows = 4 := by decide
theorem test_geometry_rows_not_pow2 : (Geometry.mk 12 1 1).valid = false := by decide
theorem test_geometry_not_divisible : (Geometry.mk 8 3 1).valid = false := by decide
theorem test_geometry_too_small : (Geometry.mk 4 8 1).valid = false := by decide
theorem test_geometry_blocksize_not_pow2 : (Geometry.mk 12 1 3).valid = false := by decide
theorem test_geometry_zero : (Geometry.mk 0 1 1).valid = false ∧ (Geometry.mk 8 0 1).valid = false := by decide
theorem test_config_bad_l1 : (CacheConfig.l1 ⟨12, 1, 1⟩).valid = false := by decide
theorem test_config_bad_l2 : (CacheConfig.l1l2 ⟨8, 1, 1⟩ ⟨8, 3, 1⟩).valid = false := by decide
theorem test_image_too_long : imageFits (List.replicate 8193 0#16) = false := by
  rw [imageFits, List.length_replicate]; rfl
theorem test_image_longest : imageFits (List.replicate 8192 0#16) = true := by
  rw [imageFits, List.length_replicate]; rfl
theorem test_launch_bad_config :
    launch (.l1 ⟨12, 1, 1⟩) Params.default .zero 0 [] = .error .configurationError := by decide
theorem test_launch_bad_image :
    launch .none Params.default .zero 0 (List.replicate 8193 0#16) = .error .imageError := by
  rw [launch, test_image_too_long]; rfl

/- ### Each constructor's word, written out from R102 to R104 and R108 -/

theorem test_decode_add : decode .ignore 0b0000010100110000#16 = .ok (.add 3#3 1#3 2#3) := by decide
theorem test_decode_sub : decode .ignore 0b0000010100110001#16 = .ok (.sub 3#3 1#3 2#3) := by decide
theorem test_decode_or : decode .ignore 0b0000010100110010#16 = .ok (.or 3#3 1#3 2#3) := by decide
theorem test_decode_and : decode .ignore 0b0000010100110011#16 = .ok (.and 3#3 1#3 2#3) := by decide
theorem test_decode_slt : decode .ignore 0b0000010100110100#16 = .ok (.slt 3#3 1#3 2#3) := by decide
theorem test_decode_jr : decode .ignore 0b0001110000001000#16 = .ok (.jr 7#3) := by decide
theorem test_decode_addi : decode .ignore 0b0010010101111111#16 = .ok (.addi 2#3 1#3 0x7F#7) := by decide
theorem test_decode_j : decode .ignore 0b0101111111111111#16 = .ok (.j 8191#13) := by decide
theorem test_decode_jal : decode .ignore 0b0110000000000100#16 = .ok (.jal 4#13) := by decide
theorem test_decode_lw : decode .ignore 0b1000010100000011#16 = .ok (.lw 2#3 1#3 3#7) := by decide
theorem test_decode_sw : decode .ignore 0b1010010101000000#16 = .ok (.sw 2#3 1#3 0x40#7) := by decide
theorem test_decode_jeq : decode .ignore 0b1100010000000011#16 = .ok (.jeq 1#3 0#3 3#7) := by decide
theorem test_decode_slti : decode .ignore 0b1110010100000101#16 = .ok (.slti 2#3 1#3 5#7) := by decide
theorem test_decode_jr_unused_ignored : decode .ignore 0x1C18#16 = .ok (.jr 7#3) := by decide
theorem test_decode_jr_unused_refused : decode .decodeError 0x1C18#16 = .error .jrUnusedBitsSet := by decide
theorem test_decode_illegal_5 : decode .ignore 0x0005#16 = .error .unassignedFunc := by decide
theorem test_decode_illegal_9 : decode .ignore 0x0009#16 = .error .unassignedFunc := by decide
theorem test_decode_illegal_15 : decode .ignore 0x000F#16 = .error .unassignedFunc := by decide
theorem test_table_word : decodeTableWord 16 0x20AA = some (.addi 1#3 0#3 42#7) := by decide
theorem test_encode_addi : encode (.addi 1#3 0#3 42#7) = 0x20AA#16 := by decide
theorem test_encode_jeq : encode (.jeq 1#3 0#3 3#7) = 0xC403#16 := by decide

/- ### One step of each instruction (95_test_vectors.md 2.1, 2.2, 2.4) -/

/-- A running core at `pc` with two registers set and the word `w` at its pc. -/
def core1 (pc : Addr) (x1 x2 : Word) (w : Nat) (p : Params := Params.default) : State :=
  (((({ State.reset with params := p } : State).writeReg 1#3 x1).writeReg 2#3 x2).setPc pc).withFetchWord 16 w

/-- A register, the pc and the status after one step; 0, 0 and running where the step stops. -/
def after1 (s : State) (r : Reg) : Word × Addr × RunStatus :=
  match step s with
  | .next t => (t.readReg r, t.pc, t.status)
  | _ => (0#16, 0#13, .running)

theorem test_add_wraps : after1 (core1 0#13 0xFFFF#16 2#16 0x0530) 3#3 = (1#16, 1#13, .running) := by decide
theorem test_add_source_is_destination :
    after1 (core1 0#13 0x8001#16 0#16 0x0490) 1#3 = (2#16, 1#13, .running) := by decide
theorem test_sub_borrows : after1 (core1 0#13 0#16 1#16 0x0531) 3#3 = (0xFFFF#16, 1#13, .running) := by decide
theorem test_sub_order : after1 (core1 0#13 0x8000#16 1#16 0x0531) 3#3 = (0x7FFF#16, 1#13, .running) := by decide
theorem test_or : after1 (core1 0#13 0x00F0#16 0x0F0F#16 0x0532) 3#3 = (0x0FFF#16, 1#13, .running) := by decide
theorem test_and : after1 (core1 0#13 0x00F0#16 0x0FFF#16 0x0533) 3#3 = (0x00F0#16, 1#13, .running) := by decide
theorem test_slt_unsigned : after1 (core1 0#13 0xFFFF#16 1#16 0x0534) 3#3 = (0#16, 1#13, .running) := by decide
theorem test_slt_less : after1 (core1 0#13 1#16 0xFFFF#16 0x0534) 3#3 = (1#16, 1#13, .running) := by decide
theorem test_addi_negative : after1 (core1 0#13 0#16 0#16 0x257F) 2#3 = (0xFFFF#16, 1#13, .running) := by decide
theorem test_addi_pc : after1 (core1 8190#13 0#16 0#16 0x2081) 1#3 = (1#16, 8191#13, .running) := by decide
/-- The corner table of R141: `slti $2,$1,-1` with 0xFFFE. -/
theorem test_slti_settings :
    (after1 (core1 0#13 0xFFFE#16 7#16 0xE57F) 2#3).1 = 0#16 ∧
    (after1 (core1 0#13 0xFFFE#16 7#16 0xE57F { Params.default with sltiCompare := .signed16 }) 2#3).1 = 1#16 ∧
    (after1 (core1 0#13 0xFFFE#16 7#16 0xE57F { Params.default with sltiCompare := .unsigned16 }) 2#3).1 = 1#16 := by
  decide
theorem test_j : after1 (core1 2#13 0#16 0#16 0x4005) 7#3 = (0#16, 5#13, .running) := by decide
theorem test_j_halts : after1 (core1 7#13 0#16 0#16 0x4007) 7#3 = (0#16, 7#13, .halted) := by decide
theorem test_jal_link_wraps : after1 (core1 8191#13 0#16 0#16 0x6000) 7#3 = (0#16, 0#13, .running) := by decide
theorem test_jal_self : after1 (core1 9#13 0#16 0#16 0x6009) 7#3 = (10#16, 9#13, .running) := by decide
theorem test_jr_drops_high_bits : after1 (core1 5#13 0x2005#16 0#16 0x0408) 1#3 = (0x2005#16, 5#13, .running) := by
  decide
theorem test_jeq_taken_back : (after1 (core1 100#13 9#16 9#16 0xC540) 1#3).2.1 = 37#13 := by decide
theorem test_jeq_not_taken : (after1 (core1 8191#13 1#16 2#16 0xC501) 1#3).2.1 = 0#13 := by decide
theorem test_illegal_word : after1 (core1 1#13 0#16 0#16 0x0005) 1#3 = (0#16, 1#13, .faulted 1#13 5#16) := by decide
/-- LS3: the base is read before the same register is written. -/
theorem test_lw_base_is_destination :
    after1 ((core1 0#13 5#16 0#16 0x8480).writeMem 5#13 7#16) 1#3 = (7#16, 1#13, .running) := by decide
/-- LS5: `sw $2,-64($1)`. -/
theorem test_sw :
    (match step (core1 0#13 0x10#16 0xCAFE#16 0xA540) with
      | .next t => t.readMem 8144#13
      | _ => 0#16) = 0xCAFE#16 := by decide
/-- LS7: storing 0 unlists the word. -/
theorem test_sw_zero :
    (match step ((core1 0#13 0#16 0#16 0xA007).writeMem 7#13 0x5555#16) with
      | .next t => t.mem
      | _ => []) = [(0, 0xA007#16)] := by decide
theorem test_stopped_core_has_no_step : step State.reset.halt = .fault .coreHalted := rfl

/- ### The three answers of a run under fuel (R235, R236) -/

/-- P8: `jeq $0,$0,-1` at address 0 uses up its fuel, with pc 0 and the registers as they were. -/
theorem test_run_p8_out_of_fuel :
    run 3 (State.reset.withFetchWord 16 0xC07F) = .outOfFuel (State.reset.withFetchWord 16 0xC07F) := by decide
theorem test_run_halts :
    run 1 (State.reset.withFetchWord 16 0x4000) = .halted (State.reset.withFetchWord 16 0x4000).halt := by decide
theorem test_run_faults :
    run 1 (State.reset.withFetchWord 16 0x0005) =
      .faulted 0#13 5#16 ((State.reset.withFetchWord 16 0x0005).raiseDecodeError 5#16) := by decide

/- ### The decomposer and one level (95_test_vectors.md 2.6, 2.7) -/

theorem test_decompose_64_4_4 : decompose 6844#13 4 4 = { tag := 427, row := 3, offset := 0 } := by decide
theorem test_decompose_one_row : decompose 5000#13 16384 1 = { tag := 0, row := 0, offset := 5000 } := by decide

/-- LRU-2 up to its second access. -/
def lru2 : Cache := ((Cache.empty ⟨4, 2, 1⟩).access 0#13 0x000A#16 true).cache.access 2#13 0x000B#16 true |>.cache

/-- LRU-2, access 4 after the re-touch of access 3: tag 1 is evicted. -/
theorem test_lru2_evicts_tag_1 :
    ((lru2.access 0#13 0#16 false).cache.access 4#13 0x000C#16 true).cache.row 0 =
      [⟨true, 0, 3, 0x000A#16⟩, ⟨true, 2, 4, 0x000C#16⟩] := by decide
/-- LRU-3: a write hit overwrites in place. -/
theorem test_lru3_write_hit :
    ((Cache.empty ⟨4, 2, 1⟩).access 0#13 0x000A#16 true).cache.access 0#13 0x000D#16 true =
      { cache := { geom := ⟨4, 2, 1⟩, counter := 2,
                   rows := [[⟨true, 0, 2, 0x000D#16⟩, CacheBlock.empty], [CacheBlock.empty, CacheBlock.empty]] }
        row := 0, data := some 0x000D#16 } := by decide

/-- R79's example: one block of two words, the second word read through the first's block. -/
theorem test_blocksize_2_returns_the_other_word :
    let h := ((Hierarchy.empty (.l1 ⟨4, 1, 2⟩)).load 0#13 8#13 0x1111#16).hier
    (h.load 1#13 9#13 0x2222#16).value = 0x1111#16 := by decide

/-- W9: the first load of an address misses in both levels, in the order of R74. -/
theorem test_two_level_miss_order :
    kinds ((Hierarchy.empty (.l1l2 ⟨2, 1, 1⟩ ⟨4, 1, 1⟩)).load 0#13 0#13 0x8080#16).events =
      [(.l1, .miss), (.l2, .miss), (.l2, .write), (.l1, .write)] := by decide

/- ### Witnesses: concrete inputs that meet the hypotheses of each statement -/

theorem wit_EncodeDecodeRoundTrip :
    decode .ignore 0x1FF8#16 = .ok (.jr 7#3) ∧ decode .decodeError 0x0530#16 = .ok (.add 3#3 1#3 2#3) := by decide

/-- The first and last words of the ranges of `DecoderReadsEveryField`'s clauses. -/
theorem wit_DecoderReadsEveryField :
    (0x0000 / 8192 = 0 ∧ 0x0000 % 16 = 0) ∧ (0x1FF0 / 8192 = 0 ∧ 0x1FF0 % 16 = 0) ∧ (0x1FF1 % 16 = 1) ∧
    (0x1FF2 % 16 = 2) ∧ (0x1FF3 % 16 = 3) ∧ (0x1FF4 % 16 = 4) ∧ (0x1C08 % 16 = 8 ∧ 0x1C08 / 16 % 64 = 0) ∧
    (0x2000 / 8192 = 1 ∧ 0x3FFF / 8192 = 1) ∧ (0x4000 / 8192 = 2 ∧ 0x5FFF / 8192 = 2) ∧
    (0x6000 / 8192 = 3 ∧ 0x7FFF / 8192 = 3) ∧ (0x8000 / 8192 = 4 ∧ 0x9FFF / 8192 = 4) ∧
    (0xA000 / 8192 = 5 ∧ 0xBFFF / 8192 = 5) ∧ (0xC000 / 8192 = 6 ∧ 0xDFFF / 8192 = 6) ∧
    (0xE000 / 8192 = 7 ∧ 0xFFFF / 8192 = 7) := by decide

theorem wit_geometry_meets_R9 : (Geometry.mk 4 2 1).MeetsR9 := ⟨rfl, ⟨1, rfl⟩, ⟨0, rfl⟩, 1, rfl⟩

theorem wit_LaunchPlacesImage :
    (CacheConfig.l1 ⟨4, 2, 1⟩).MeetsR9 ∧ (List.replicate 8192 0#16).length ≤ 8192 ∧
      8192 < (List.replicate 8193 0#16).length :=
  ⟨wit_geometry_meets_R9, by rw [List.length_replicate], by rw [List.length_replicate]; decide⟩

theorem wit_LaunchStartsRunningOrNotAtAll :
    (∃ s, launch (.l1 ⟨4, 2, 1⟩) Params.default .zero 0 [0x4000#16] = .ok s) ∧
      ¬ (CacheConfig.l1 ⟨8, 3, 1⟩).MeetsR9 :=
  ⟨⟨_, rfl⟩, fun h => absurd h.1 (by decide)⟩

theorem wit_LaunchResetValues :
    (∃ s, launch (.l1 ⟨4, 2, 1⟩) Params.default .zero 0 [] = .ok s) ∧
      ∃ s, launch (.l1 ⟨4, 2, 1⟩) Params.default .unspecified 7 [] = .ok s := ⟨⟨_, rfl⟩, ⟨_, rfl⟩⟩

theorem wit_LaunchSatisfiesInvariant :
    (∃ s, launch (.l1l2 ⟨2, 1, 1⟩ ⟨4, 1, 1⟩) Params.default .zero 0 [0x8080#16] = .ok s) ∧
      (CacheConfig.l1l2 ⟨2, 1, 1⟩ ⟨4, 1, 1⟩).UnitBlocks := ⟨⟨_, rfl⟩, rfl, rfl⟩

theorem wit_EmptyRowsMiss : ∀ i, ((Cache.empty ⟨4, 2, 1⟩).slot ((Cache.empty ⟨4, 2, 1⟩).decompose 5#13).row i).valid = false :=
  fun i => by simp [CacheBlock.empty]

theorem wit_ZeroDestinationOnlyAdvances :
    isAlu (.slti 0#3 0#3 1#7) = true ∧ destination (.slti 0#3 0#3 1#7) = some 0#3 := by decide

theorem wit_RegisterZeroHardwired : destination (.lw 0#3 1#3 0#7) = some 0#3 := rfl

theorem wit_AluIgnoresMemoryAndCaches : isAlu (.add 1#3 2#3 3#3) = true := rfl

/-- The boundary values at which `JeqTargets`' clauses apply: equal and unequal registers, pc 0 and 8191. -/
theorem wit_JeqTargets :
    (core1 0#13 9#16 9#16 0).readReg 1#3 = (core1 0#13 9#16 9#16 0).readReg 2#3 ∧ (core1 0#13 9#16 9#16 0).pc = 0#13 ∧
    (core1 8191#13 1#16 2#16 0).readReg 1#3 ≠ (core1 8191#13 1#16 2#16 0).readReg 2#3 ∧
    (core1 8191#13 9#16 9#16 0).readReg 1#3 = (core1 8191#13 9#16 9#16 0).readReg 2#3 ∧
    (core1 8191#13 1#16 2#16 0).pc = 8191#13 := by decide

theorem wit_OnlyJumpToSelfHalts :
    State.reset.status = .running ∧ (State.reset.withFetchWord 16 0x4000).decodeFetched = .ok (.j 0#13) ∧
      State.reset.halt.status = .halted ∧ ∀ t, Instr.jal 0#13 ≠ .j t := ⟨rfl, by decide, rfl, by simp⟩

/-- The clauses of `JumpToSelfHalts`, `JalLinksAndJumps` and `JrWrapsItsTarget` that have a premise: a target equal to
the pc and one that is not, address 8191, register 0. The results' premise `d ≠ 0`, `LwResult`'s and `SwResult`'s too. -/
theorem wit_control_and_results :
    (core1 7#13 0#16 0#16 0x4007).pc = 7#13 ∧ (8#13 : Addr) ≠ (core1 7#13 0#16 0#16 0x4007).pc ∧
      (core1 8191#13 0#16 0#16 0x6000).pc = 8191#13 ∧ (1#3 : Reg) ≠ 0#3 ∧ (7#3 : Reg) ≠ 0#3 := by decide

/-- The corner clauses of `DecomposerSplitsAddress`: the smallest sum of bits, and the smallest offset width. -/
theorem wit_DecomposerSplitsAddress : 13 ≤ 0 + 13 ∧ 13 ≤ 13 ∧ (decompose 8191#13 (2 ^ 13) (2 ^ 0)).row = 0 := by decide

/-- A step that answers a next state, for each kind of word: illegal, a jump, and one that falls through at 8191. -/
theorem wit_PcAdvancesOrJumps :
    (∃ t, step (core1 1#13 0#16 0#16 0x0005) = .next t) ∧ (∃ t, step (core1 2#13 0#16 0#16 0x4005) = .next t) ∧
      ∃ t, step (core1 8191#13 0#16 0#16 0x0000) = .next t := ⟨⟨_, rfl⟩, ⟨_, rfl⟩, ⟨_, rfl⟩⟩

theorem wit_OnlyDestinationChanges :
    (∃ t, exec (.jal 4#13) State.reset = .next t) ∧ destination (.jal 4#13) ≠ some 1#3 := ⟨⟨_, rfl⟩, by decide⟩

theorem wit_SwResult : (core1 0#13 1#16 2#16 0xA083).mem.wf := by decide

theorem wit_OnlyStoresWriteMemory :
    ∃ t, step (core1 0#13 0x10#16 0xCAFE#16 0xA540) = .next t ∧
      t.readMem 8144#13 ≠ (core1 0#13 0x10#16 0xCAFE#16 0xA540).readMem 8144#13 := ⟨_, rfl, by decide⟩

/-- P5's store, one word before the word it rewrites. -/
theorem wit_StoreVisibleToNextFetch :
    (core1 2#13 0x4003#16 0#16 0xA083).mem.wf ∧ (core1 2#13 0x4003#16 0#16 0xA083).status = .running ∧
      (core1 2#13 0x4003#16 0#16 0xA083).decodeFetched = .ok (.sw 1#3 0#3 3#7) ∧
      effectiveAddress ((core1 2#13 0x4003#16 0#16 0xA083).readReg 0#3) 3#7 = nextPc 2#13 := by decide

/-- A core with two empty levels of blocksize 1 and a `lw` at its pc. -/
def cached : State :=
  { State.reset with mem := [(0, 0x8080#16)], hier := Hierarchy.empty (.l1l2 ⟨2, 1, 1⟩ ⟨4, 1, 1⟩) }

theorem empty_wf (g : Geometry) (h : (Cache.empty g).Shape) : (Cache.empty g).Wf := by
  refine ⟨h, ⟨?_, ?_, ?_⟩, ?_, ?_⟩
  · intro r i hv; simp [CacheBlock.empty] at hv
  · intro r i _; simp [CacheBlock.empty]
  · intro r i r' i' hv; simp [CacheBlock.empty] at hv
  · intro r i i' hv; simp [CacheBlock.empty] at hv
  · intro r i; simp [CacheBlock.empty]

theorem wit_cached_inv : cached.Inv := by
  refine ⟨by decide, rfl, ⟨empty_wf _ ?_, empty_wf _ ?_⟩, by simp [cached, State.reset]⟩ <;>
    (unfold Cache.Shape; decide)

theorem wit_cached_transparent : cached.Transparent :=
  ⟨wit_cached_inv, ⟨rfl, fun r i hv => by simp [CacheBlock.empty] at hv⟩,
    ⟨rfl, fun r i hv => by simp [CacheBlock.empty] at hv⟩⟩

theorem wit_LoadAfterStoreReturnsIt :
    cached.Inv ∧ (2#3 : Reg) ≠ 0#3 ∧ cached.hier ≠ .none ∧
      effectiveAddress (cached.readReg 0#3) 5#7 = effectiveAddress (cached.readReg 0#3) 5#7 :=
  ⟨wit_cached_inv, by decide, by decide, rfl⟩

theorem wit_LoadAfterStoreReturnsIt_no_cache : State.reset.Inv ∧ State.reset.hier = .none :=
  ⟨⟨by decide, rfl, trivial, by simp [State.reset]⟩, rfl⟩

theorem wit_lru2_shape : lru2.Shape := by unfold Cache.Shape; decide

/-- A hit in slot 1, past a valid slot of another tag. -/
theorem wit_AccessHit :
    (lru2.slot (lru2.decompose 2#13).row 1).valid = true ∧
      (lru2.slot (lru2.decompose 2#13).row 1).tag = (lru2.decompose 2#13).tag ∧
      ∀ j < 1, (lru2.slot (lru2.decompose 2#13).row j).valid = true →
        (lru2.slot (lru2.decompose 2#13).row j).tag ≠ (lru2.decompose 2#13).tag := by decide

/-- A miss in a full row: the third distinct tag. The hypotheses of `MissInstallsTag` and `FillFindsItsProbesSlot`
too. -/
theorem wit_MissReplacesLeastRecentlyUsed : lru2.Shape ∧ lru2.Lacks 4#13 :=
  ⟨wit_lru2_shape, Cache.findSlot_eq_none_iff.mp (by decide)⟩

/-- One full row of two slots. -/
def fullRow : Cache :=
  { geom := ⟨2, 2, 1⟩, counter := 2, rows := [[⟨true, 0, 2, 0xA#16⟩, ⟨true, 1, 1, 0xB#16⟩]] }

theorem fullRow_slot (r i : Nat) :
    fullRow.slot r i =
      if r = 0 ∧ i = 0 then ⟨true, 0, 2, 0xA#16⟩ else if r = 0 ∧ i = 1 then ⟨true, 1, 1, 0xB#16⟩
      else CacheBlock.empty := by
  rcases r with _ | r
  · rcases i with _ | _ | i <;> simp [Cache.slot, Cache.row, fullRow]
  · simp [Cache.slot, Cache.row, fullRow]

theorem wit_InvalidSlotsChosenFirst_full :
    fullRow.Wf ∧ 0 < fullRow.rows.length ∧ ∀ i < fullRow.geom.associativity, (fullRow.slot 0 i).valid = true := by
  refine ⟨⟨by unfold Cache.Shape; decide, ⟨?_, ?_, ?_⟩, ?_, ?_⟩, by decide, by decide⟩
  · intro r i; rw [fullRow_slot]; split_ifs <;> simp [CacheBlock.empty, fullRow]
  · intro r i; rw [fullRow_slot]; split_ifs <;> simp [CacheBlock.empty]
  · intro r i r' i'; rw [fullRow_slot, fullRow_slot]; split_ifs <;> simp_all [CacheBlock.empty]
  · intro r i i'; rw [fullRow_slot, fullRow_slot]; split_ifs <;> simp_all [CacheBlock.empty]
  · intro r i
    have e : 2 ^ (13 - (Nat.log2 fullRow.geom.blocksize + Nat.log2 fullRow.geom.numRows)) = 8192 := by decide
    rw [fullRow_slot, e]; split_ifs <;> simp [CacheBlock.empty]

theorem wit_InvalidSlotsChosenFirst_empty :
    (Cache.empty ⟨4, 2, 1⟩).Wf ∧ 1 < (Cache.empty ⟨4, 2, 1⟩).rows.length ∧
      ((Cache.empty ⟨4, 2, 1⟩).slot 1 1).valid = false :=
  ⟨empty_wf _ (by unfold Cache.Shape; decide), by decide, by decide⟩

theorem wit_NoCacheIsDirectAccess : State.reset.hier = .none := rfl

/-- L1 hit, L1 miss, and with an L2 its hit and its miss. -/
theorem wit_HierLoadCases :
    (lru2.access 2#13 0#16 false).data = some 0x000B#16 ∧ (lru2.access 4#13 0#16 false).data = none ∧
    (fullRow.access 1#13 0#16 false).data = some 0xB#16 ∧ (fullRow.access 4#13 0#16 false).data = none := by decide

theorem wit_HierStoreCases :
    cached.hier = .l1l2 (Cache.empty ⟨2, 1, 1⟩) (Cache.empty ⟨4, 1, 1⟩) ∧
      ({ cached with hier := .l1 fullRow } : State).hier = .l1 fullRow := ⟨rfl, rfl⟩

/-- Each event sequence whose counters `CounterConsumption` states. -/
theorem wit_CounterConsumption :
    kinds ((Hierarchy.l1 lru2).load 0#13 2#13 0#16).events = [(.l1, .hit)] ∧
    kinds ((Hierarchy.l1 lru2).load 0#13 4#13 0#16).events = [(.l1, .miss), (.l1, .write)] ∧
    kinds ((Hierarchy.l1l2 lru2 fullRow).load 0#13 2#13 0#16).events = [(.l1, .hit)] ∧
    kinds ((Hierarchy.l1l2 lru2 fullRow).load 0#13 1#13 0#16).events = [(.l1, .miss), (.l2, .hit), (.l1, .write)] ∧
    kinds ((Hierarchy.l1l2 lru2 fullRow).load 0#13 4#13 0#16).events =
      [(.l1, .miss), (.l2, .miss), (.l2, .write), (.l1, .write)] := by decide

/-- A cached step with events: the hypothesis of `ValidSlotsStayValid`, `EventLogOnlyGrows`, `ConfigurationIsFixed`,
`StepKeepsInvariant` and `StepKeepsTransparency`, and of `CachesAreInvisible` with `wit_cached_transparent`. -/
theorem wit_cached_step : ∃ t, step cached = .next t ∧ t.events ≠ [] := ⟨_, rfl, by decide⟩

theorem wit_CachesAreInvisible_memory_source :
    ∃ t, step { cached with params := { Params.default with loadValueSource := .memory } } = .next t := ⟨_, rfl⟩

theorem wit_OnlyLoadsAndStoresReachCaches :
    (∃ t, exec (.jal 4#13) cached = .next t) ∧ reachesHierarchy (.jal 4#13) = false := ⟨⟨_, rfl⟩, rfl⟩

theorem wit_StepRunsDecodedInstruction :
    State.reset.status = .running ∧
      decode State.reset.params.jrUnusedBits (State.reset.readMem State.reset.pc) = .ok (.add 0#3 0#3 0#3) ∧
      State.reset.halt.status ≠ .running ∧ setsPc (.add 0#3 0#3 0#3) = false := by decide

theorem wit_DecodeErrorStopsPrecisely :
    (core1 1#13 0#16 0#16 0x0005).status = .running ∧
      (core1 1#13 0#16 0#16 0x0005).decodeFetched = .error .unassignedFunc := by decide

theorem wit_RunStatusLifecycle :
    State.reset.halt.EndedWell ∧ (State.reset.raiseDecodeError 5#16).EndedBadly := ⟨rfl, _, _, rfl⟩

end Sys2Proof.Tests
end

/-! PROOFS. The statements of spec/00_scope.md: the checks of a launch, the reset state, effective addresses, and which
words of memory a step writes. -/

section LaunchChecks

namespace Sys2Proof.Machine

/-- The check of a power of two says what R9 says. -/
theorem isPow2_iff {n : Nat} : isPow2 n = true ↔ ∃ k, n = 2 ^ k := by
  constructor
  · intro h
    exact ⟨Nat.log2 n, isPow2_eq h⟩
  · rintro ⟨k, rfl⟩
    simp [isPow2]

/-- The model's check of a geometry is the condition of R9. -/
theorem geometry_valid_iff_meetsR9 {g : Geometry} : g.valid = true ↔ g.MeetsR9 := by
  simp only [Geometry.valid, Geometry.MeetsR9, Geometry.numRows, Bool.and_eq_true, beq_iff_eq, isPow2_iff, and_assoc]

/-- The model's check of a cache configuration is the condition of R9 on each of its levels. -/
theorem config_valid_iff_meetsR9 {config : CacheConfig} : config.valid = true ↔ config.MeetsR9 := by
  cases config with
  | none => simp [CacheConfig.valid, CacheConfig.MeetsR9]
  | l1 g1 => exact geometry_valid_iff_meetsR9
  | l1l2 g1 g2 =>
    simp only [CacheConfig.valid, CacheConfig.MeetsR9, Bool.and_eq_true, geometry_valid_iff_meetsR9]

/-- The launch checks the configuration first, and only that check answers ConfigurationError (R230). -/
theorem launch_eq_configurationError_iff {config : CacheConfig} {params : Params} {mode : RegReset} {seed : Nat}
    {image : List Word} :
    launch config params mode seed image = .error .configurationError ↔ config.valid = false := by
  by_cases hc : config.valid = false
  · simp [launch, hc]
  · by_cases hi : imageFits image = false <;> simp [launch, hc, hi]

/-- Settles O8: the launch's one check for this error is the condition of R9. -/
theorem configurationErrorExactly : Obligations.ConfigurationErrorExactly := by
  intro config params mode seed image
  rw [launch_eq_configurationError_iff, ← config_valid_iff_meetsR9, Bool.not_eq_true]

end Sys2Proof.Machine

end LaunchChecks

section ResetState

namespace Sys2Proof.Machine

/-- The register file at reset under REG_RESET = zero, whatever the seed (R42). -/
theorem resetRegs_zero (seed : Nat) : resetRegs .zero seed = Vector.replicate 8 0#16 := by
  ext i hi
  simp [resetRegs, resetReg]

/-- Every register of the reset state reads 0. -/
@[simp] theorem State.reset_readReg (r : Reg) : State.reset.readReg r = 0#16 := by
  simp [State.readReg, State.reset]

/-- Every word of the reset state's memory reads 0. -/
@[simp] theorem State.reset_readMem (a : Addr) : State.reset.readMem a = 0#16 := rfl

/-- The launch with no cache, the default parameters, REG_RESET = zero and the empty image passes both checks and
builds the reset state. -/
theorem launch_default (seed : Nat) : launch .none Params.default .zero seed [] = .ok State.reset := by
  simp [launch, CacheConfig.valid, imageFits, resetRegs_zero, Memory.ofImage, Hierarchy.empty, State.reset]

/-- Settles O9. -/
theorem resetIsTheDefaultLaunch : Obligations.ResetIsTheDefaultLaunch :=
  ⟨launch_default, rfl, rfl, rfl, State.reset_readReg, State.reset_readMem⟩

end Sys2Proof.Machine

end ResetState

section Addresses

namespace Sys2Proof.Machine

/-- `wrap13` is the Euclidean remainder mod 8192 (R14; D8). -/
theorem wrap13_toNat (a : Int) : ((wrap13 a).toNat : Int) = a % 8192 := by
  simp only [wrap13, BitVec.toNat_ofInt]
  omega

/-- The effective address as a number (R170). -/
theorem effectiveAddress_toNat (base : Word) (imm7 : BitVec 7) :
    ((effectiveAddress base imm7).toNat : Int) = (base.toNat + sext7 imm7) % 8192 :=
  wrap13_toNat _

/-- Settles O32: the general rule, and the six rows of R171 by evaluation. -/
theorem effectiveAddressWraps : Obligations.EffectiveAddressWraps :=
  ⟨effectiveAddress_toNat, by decide⟩

end Sys2Proof.Machine

end Addresses

section MemoryWrites

namespace Sys2Proof.Machine

/-- No instruction but `sw` writes memory (R88). -/
theorem exec_mem_of_ne_sw {i : Instr} {s t : State} (h : exec i s = .next t)
    (hi : ∀ src a imm7, i ≠ .sw src a imm7) : t.mem = s.mem := by
  cases i
  case sw src a imm7 => exact absurd rfl (hi src a imm7)
  case j imm13 =>
    simp only [exec, execJ] at h
    split at h <;> cases h <;> rfl
  case jeq a b imm7 =>
    simp only [exec, execJeq] at h
    split at h <;> cases h <;> rfl
  all_goals cases h; rfl

/-- The words of memory after a `sw`: the one at its effective address is the stored register, every other is as
before (R49, R176). -/
theorem exec_sw_readMem {src a : Reg} {imm7 : BitVec 7} {s t : State} (hwf : s.mem.wf)
    (h : exec (.sw src a imm7) s = .next t) (b : Addr) :
    t.readMem b = if b = effectiveAddress (s.readReg a) imm7 then s.readReg src else s.readMem b := by
  cases h
  simp [State.readMem_writeMem s hwf]

/-- A step that changes memory ran a `sw` (R88). -/
theorem step_mem_cases {s t : State} (h : step s = .next t) :
    t.mem = s.mem ∨
      ∃ src a imm7, s.decodeFetched = .ok (.sw src a imm7) ∧ exec (.sw src a imm7) s = .next t := by
  obtain ⟨-, ⟨i, hi, hexec⟩ | ⟨-, rfl⟩⟩ := step_cases h
  · by_cases hsw : ∃ src a imm7, i = .sw src a imm7
    · obtain ⟨src, a, imm7, rfl⟩ := hsw
      exact .inr ⟨src, a, imm7, hi, hexec⟩
    · push Not at hsw
      exact .inl (exec_mem_of_ne_sw hexec hsw)
  · exact .inl rfl

/-- Settles O35: the step ran a `sw`, and a word other than the one it stores to is as before. -/
theorem onlyStoresWriteMemory : Obligations.OnlyStoresWriteMemory := by
  intro s t b hwf hstep hchanged
  rcases step_mem_cases hstep with hmem | ⟨src, a, imm7, hdec, hexec⟩
  · exact absurd (by simp only [State.readMem, hmem]) hchanged
  · have hread := exec_sw_readMem hwf hexec b
    have hb : b = effectiveAddress (s.readReg a) imm7 := by
      by_contra hne
      exact hchanged (by rw [hread, if_neg hne])
    exact ⟨src, a, imm7, hdec, hb, by rw [hread, if_pos hb]⟩

end Sys2Proof.Machine

end MemoryWrites

/-! PROOFS. The statements of spec/10_state.md: what a launch builds, what an instruction and a step can change, the
invariant of the machine, and the caches no program can see. -/

section AccessKeepsWf

namespace Sys2Proof.Machine

/-- What an access at `a` makes of a well-shaped level: one slot of the row of `a` becomes valid with the tag of `a`
and the new stamp, every other slot stays (R58, R60, R61). The slot held the tag before, or no slot of its row did. -/
structure Cache.Restamped (c : Cache) (a : Addr) (i : Nat) (b : CacheBlock) (c' : Cache) : Prop where
  geom : c'.geom = c.geom
  counter : c'.counter = c.counter + 1
  slots : ∀ r' i', c'.slot r' i' = if r' = (c.decompose a).row ∧ i' = i then b else c.slot r' i'
  valid : b.valid = true
  tag : b.tag = (c.decompose a).tag
  stamp : b.recency = c.counter + 1
  heldOrLacking : ((c.slot (c.decompose a).row i).valid = true ∧
    (c.slot (c.decompose a).row i).tag = (c.decompose a).tag) ∨ c.Lacks a

/-- Every access of a well-shaped level is such a change. -/
theorem Cache.Shape.access_restamps {c : Cache} (h : c.Shape) (a : Addr) (pd : Word) (isWrite : Bool) :
    ∃ i b, c.Restamped a i b (c.access a pd isWrite).cache := by
  obtain ⟨i, b, hc, hstamp, ⟨hf, rfl, -⟩ | ⟨hf, rfl, rfl, -⟩⟩ := c.access_cases a pd isWrite
  · obtain ⟨hi, hv, ht⟩ := findSlot_spec hf
    rw [h.row_length (h.row_lt a)] at hi
    exact ⟨i, (c.slot _ i).touch (c.counter + 1) pd isWrite, by simp, by simp,
      by rw [hc]; exact h.slot_rewrite a hi _ _, hv, ht, hstamp, .inl ⟨hv, ht⟩⟩
  · have hi := h.victim_lt (h.row_lt a)
    exact ⟨_, _, by simp, by simp, by rw [hc]; exact h.slot_rewrite a hi _ _, rfl, rfl, hstamp,
      .inr (Cache.findSlot_eq_none_iff.mp hf)⟩

namespace Cache.Restamped

variable {c c' : Cache} {a : Addr} {i : Nat} {b : CacheBlock}

theorem slot_self (h : c.Restamped a i b c') : c'.slot (c.decompose a).row i = b := by
  rw [h.slots, if_pos ⟨rfl, rfl⟩]

theorem slot_other (h : c.Restamped a i b c') {r' i' : Nat} (hne : ¬ (r' = (c.decompose a).row ∧ i' = i)) :
    c'.slot r' i' = c.slot r' i' := by
  rw [h.slots, if_neg hne]

/-- Before the access no other slot of the row was valid with the tag of `a`. -/
theorem tag_fresh (h : c.Restamped a i b c') (hu : c.TagsUnique) {j : Nat} (hj : j ≠ i)
    (hv : (c.slot (c.decompose a).row j).valid = true) : (c.slot (c.decompose a).row j).tag ≠ (c.decompose a).tag := by
  intro ht
  rcases h.heldOrLacking with ⟨hvi, hti⟩ | hl
  · exact hj (hu _ _ _ hv hvi (ht.trans hti.symm))
  · exact hl j hv ht

/-- The recency discipline is kept: the new stamp exceeds every old one (R63). -/
theorem stamped (h : c.Restamped a i b c') (hs : c.Stamped) : c'.Stamped := by
  obtain ⟨hrange, hzero, hdistinct⟩ := hs
  have hold : ∀ r j, (c.slot r j).valid = true → (c.slot r j).recency ≠ b.recency := fun r j hv => by
    have := (hrange r j hv).2
    rw [h.stamp]
    omega
  refine ⟨fun r j hv => ?_, fun r j hv => ?_, fun r j r' j' hv hv' he => ?_⟩
  · rw [h.counter]
    by_cases hj : r = (c.decompose a).row ∧ j = i
    · rw [hj.1, hj.2, h.slot_self, h.stamp]
      omega
    · rw [h.slot_other hj] at hv ⊢
      have := hrange r j hv
      omega
  · by_cases hj : r = (c.decompose a).row ∧ j = i
    · rw [hj.1, hj.2, h.slot_self, h.valid] at hv
      cases hv
    · rw [h.slot_other hj] at hv ⊢
      exact hzero r j hv
  · by_cases hj : r = (c.decompose a).row ∧ j = i <;> by_cases hj' : r' = (c.decompose a).row ∧ j' = i
    · exact ⟨hj.1.trans hj'.1.symm, hj.2.trans hj'.2.symm⟩
    · rw [hj.1, hj.2, h.slot_self, h.slot_other hj'] at he
      rw [h.slot_other hj'] at hv'
      exact absurd he.symm (hold r' j' hv')
    · rw [hj'.1, hj'.2, h.slot_self, h.slot_other hj] at he
      rw [h.slot_other hj] at hv
      exact absurd he (hold r j hv)
    · rw [h.slot_other hj] at hv he
      rw [h.slot_other hj'] at hv' he
      exact hdistinct r j r' j' hv hv' he

/-- No row gets a second valid slot of one tag (R64). -/
theorem tagsUnique (h : c.Restamped a i b c') (hu : c.TagsUnique) : c'.TagsUnique := by
  have hclash : ∀ j, j ≠ i → (c'.slot (c.decompose a).row j).valid = true →
      (c'.slot (c.decompose a).row j).tag ≠ b.tag := fun j hj hv => by
    rw [h.slot_other fun hr => hj hr.2] at hv ⊢
    rw [h.tag]
    exact h.tag_fresh hu hj hv
  intro r j j' hv hv' he
  by_cases hr : r = (c.decompose a).row
  · subst hr
    by_cases hj : j = i <;> by_cases hj' : j' = i
    · exact hj.trans hj'.symm
    · rw [hj, h.slot_self] at he
      exact absurd he.symm (hclash j' hj' hv')
    · rw [hj', h.slot_self] at he
      exact absurd he (hclash j hj hv)
    · rw [h.slot_other fun hn => hj hn.2] at hv he
      rw [h.slot_other fun hn => hj' hn.2] at hv' he
      exact hu _ _ _ hv hv' he
  · rw [h.slot_other fun hn => hr hn.1] at hv he
    rw [h.slot_other fun hn => hr hn.1] at hv' he
    exact hu _ _ _ hv hv' he

end Cache.Restamped

/-- The tag of an address has the bits that offset and index leave of its 13 (R33, R52). -/
theorem decompose_tag_lt (a : Addr) (blocksize numRows : Nat) :
    (decompose a blocksize numRows).tag < 2 ^ (13 - (Nat.log2 blocksize + Nat.log2 numRows)) := by
  simp only [decompose]
  generalize Nat.log2 blocksize + Nat.log2 numRows = n
  have hbits : 2 ^ 13 ≤ 2 ^ n * 2 ^ (13 - n) := by
    rw [← Nat.pow_add]
    exact Nat.pow_le_pow_right (by omega) (by omega)
  rw [Nat.shiftRight_eq_div_pow]
  exact Nat.div_lt_of_lt_mul (Nat.lt_of_lt_of_le a.isLt hbits)

theorem Cache.Restamped.tagsBounded {c c' : Cache} {a : Addr} {i : Nat} {b : CacheBlock}
    (h : c.Restamped a i b c') (hb : c.TagsBounded) : c'.TagsBounded := by
  intro r j
  rw [h.geom]
  by_cases hj : r = (c.decompose a).row ∧ j = i
  · rw [hj.1, hj.2, h.slot_self, h.tag]
    exact decompose_tag_lt a _ _
  · rw [h.slot_other hj]
    exact hb r j

/-- An access keeps the rows and slots of its level (R32). -/
theorem Cache.Shape.access {c : Cache} (h : c.Shape) (a : Addr) (pd : Word) (isWrite : Bool) :
    (c.access a pd isWrite).cache.Shape := by
  refine ⟨by simpa using h.1, by simpa using h.2.1, fun row hrow => ?_⟩
  obtain ⟨i, b, hc, -⟩ := c.access_cases a pd isWrite
  rw [hc] at hrow ⊢
  rcases List.mem_or_eq_of_mem_set hrow with hold | rfl
  · exact h.2.2 row hold
  · rw [List.length_set]
    exact h.row_length (h.row_lt a)

/-- Every access keeps the invariant of its level. -/
theorem Cache.Wf.access {c : Cache} (h : c.Wf) (a : Addr) (pd : Word) (isWrite : Bool) :
    (c.access a pd isWrite).cache.Wf := by
  obtain ⟨hshape, hstamped, hunique, hbounded⟩ := h
  obtain ⟨i, b, hr⟩ := hshape.access_restamps a pd isWrite
  exact ⟨hshape.access a pd isWrite, hr.stamped hstamped, hr.tagsUnique hunique, hr.tagsBounded hbounded⟩

end Sys2Proof.Machine

end AccessKeepsWf

section HierarchyAnswers

namespace Sys2Proof.Machine

section loadCases
variable {c1 c2 : Cache} (pc : Addr) {a : Addr} (m : Word)

/-- A load that hits its only level (R70). -/
theorem Hierarchy.load_l1_hit {d : Word} (h : (c1.access a 0#16 false).data = some d) :
    (Hierarchy.l1 c1).load pc a m =
      { hier := .l1 (c1.access a 0#16 false).cache
        events := [cacheEvent pc a .l1 .hit (c1.decompose a).row]
        value := d } := by
  simp [Hierarchy.load, h]

/-- A load that misses its only level and fills it from memory (R70, R71). -/
theorem Hierarchy.load_l1_miss (h : (c1.access a 0#16 false).data = Option.none) :
    (Hierarchy.l1 c1).load pc a m =
      { hier := .l1 ((c1.access a 0#16 false).cache.access a m true).cache
        events := [cacheEvent pc a .l1 .miss (c1.decompose a).row, cacheEvent pc a .l1 .write (c1.decompose a).row]
        value := m } := by
  simp [Hierarchy.load, h]

/-- A load that hits L1 does not reach L2 (R70). -/
theorem Hierarchy.load_l1l2_hit {d : Word} (h : (c1.access a 0#16 false).data = some d) :
    (Hierarchy.l1l2 c1 c2).load pc a m =
      { hier := .l1l2 (c1.access a 0#16 false).cache c2
        events := [cacheEvent pc a .l1 .hit (c1.decompose a).row]
        value := d } := by
  simp [Hierarchy.load, h]

/-- A load that misses L1 and hits L2 fills L1 from L2 (R72, R73). -/
theorem Hierarchy.load_l1l2_hit_l2 {d : Word} (h : (c1.access a 0#16 false).data = Option.none)
    (h2 : (c2.access a 0#16 false).data = some d) :
    (Hierarchy.l1l2 c1 c2).load pc a m =
      { hier := .l1l2 ((c1.access a 0#16 false).cache.access a d true).cache (c2.access a 0#16 false).cache
        events := [cacheEvent pc a .l1 .miss (c1.decompose a).row, cacheEvent pc a .l2 .hit (c2.decompose a).row,
          cacheEvent pc a .l1 .write (c1.decompose a).row]
        value := d } := by
  simp [Hierarchy.load, loadFromL2, h, h2]

/-- A load that misses both levels fills both from memory, L2 first (R74). -/
theorem Hierarchy.load_l1l2_miss (h : (c1.access a 0#16 false).data = Option.none)
    (h2 : (c2.access a 0#16 false).data = Option.none) :
    (Hierarchy.l1l2 c1 c2).load pc a m =
      { hier := .l1l2 ((c1.access a 0#16 false).cache.access a m true).cache
          ((c2.access a 0#16 false).cache.access a m true).cache
        events := [cacheEvent pc a .l1 .miss (c1.decompose a).row, cacheEvent pc a .l2 .miss (c2.decompose a).row,
          cacheEvent pc a .l2 .write (c2.decompose a).row, cacheEvent pc a .l1 .write (c1.decompose a).row]
        value := m } := by
  simp [Hierarchy.load, loadFromL2, h, h2]

end loadCases

/-- What the hierarchy answers to the instruction at `pc` for address `a`, be it a load or a store. -/
def Hierarchy.Answers (h : Hierarchy) (pc a : Addr) (r : HierResult) : Prop :=
  ∃ m, r = h.load pc a m ∨ r = h.store pc a m

/-- Every event of an access describes it: its pc, its address, the row its level gives the address (R68, R77). -/
theorem Hierarchy.Answers.describes {h : Hierarchy} {pc a : Addr} {r : HierResult} (ha : h.Answers pc a r) :
    ∀ e ∈ r.events, h.Describes pc a e := by
  obtain ⟨m, rfl | rfl⟩ := ha
  · cases h with
    | none => simp
    | l1 c1 =>
      cases hd : (c1.access a 0#16 false).data with
      | some d => simp [load_l1_hit pc m hd, Describes, cacheEvent]
      | none => simp [load_l1_miss pc m hd, Describes, cacheEvent]
    | l1l2 c1 c2 =>
      cases hd : (c1.access a 0#16 false).data with
      | some d => simp [load_l1l2_hit pc m hd, Describes, cacheEvent]
      | none =>
        cases hd2 : (c2.access a 0#16 false).data with
        | some d => simp [load_l1l2_hit_l2 pc m hd hd2, Describes, cacheEvent]
        | none => simp [load_l1l2_miss pc m hd hd2, Describes, cacheEvent]
  · cases h <;> simp [store, Describes, cacheEvent]

/-- An access emits at most four events (R77). -/
theorem Hierarchy.Answers.events_length_le {h : Hierarchy} {pc a : Addr} {r : HierResult} (ha : h.Answers pc a r) :
    r.events.length ≤ 4 := by
  obtain ⟨m, rfl | rfl⟩ := ha
  · cases h with
    | none => simp
    | l1 c1 =>
      cases hd : (c1.access a 0#16 false).data with
      | some d => simp [load_l1_hit pc m hd]
      | none => simp [load_l1_miss pc m hd]
    | l1l2 c1 c2 =>
      cases hd : (c1.access a 0#16 false).data with
      | some d => simp [load_l1l2_hit pc m hd]
      | none =>
        cases hd2 : (c2.access a 0#16 false).data with
        | some d => simp [load_l1l2_hit_l2 pc m hd hd2]
        | none => simp [load_l1l2_miss pc m hd hd2]
  · cases h <;> simp [store]

/-- What every access of a level keeps, every load and store keeps of the whole hierarchy. -/
theorem Hierarchy.Answers.all {P : Cache → Prop} (hP : ∀ c a pd isWrite, P c → P (c.access a pd isWrite).cache)
    {h : Hierarchy} {pc a : Addr} {r : HierResult} (ha : h.Answers pc a r) (hall : h.All P) : r.hier.All P := by
  obtain ⟨m, rfl | rfl⟩ := ha
  · cases h with
    | none => trivial
    | l1 c1 =>
      cases hd : (c1.access a 0#16 false).data with
      | some d => rw [load_l1_hit pc m hd]; exact hP _ _ _ _ hall
      | none => rw [load_l1_miss pc m hd]; exact hP _ _ _ _ (hP _ _ _ _ hall)
    | l1l2 c1 c2 =>
      obtain ⟨h1, h2⟩ := hall
      cases hd : (c1.access a 0#16 false).data with
      | some d => rw [load_l1l2_hit pc m hd]; exact ⟨hP _ _ _ _ h1, h2⟩
      | none =>
        cases hd2 : (c2.access a 0#16 false).data with
        | some d => rw [load_l1l2_hit_l2 pc m hd hd2]; exact ⟨hP _ _ _ _ (hP _ _ _ _ h1), hP _ _ _ _ h2⟩
        | none =>
          rw [load_l1l2_miss pc m hd hd2]
          exact ⟨hP _ _ _ _ (hP _ _ _ _ h1), hP _ _ _ _ (hP _ _ _ _ h2)⟩
  · cases h with
    | none => trivial
    | l1 c1 => exact hP _ _ _ _ hall
    | l1l2 c1 c2 => exact ⟨hP _ _ _ _ hall.1, hP _ _ _ _ hall.2⟩

theorem Hierarchy.Answers.config {h : Hierarchy} {pc a : Addr} {r : HierResult} (ha : h.Answers pc a r) :
    r.hier.config = h.config := by
  obtain ⟨m, rfl | rfl⟩ := ha
  · exact load_config pc a m h
  · exact store_config pc a m h

/-- An event of an access to a well-shaped hierarchy names a row of a configured level (R37). -/
theorem Hierarchy.Describes.admits {h : Hierarchy} {pc a : Addr} {e : CacheEvent} (hd : h.Describes pc a e)
    (hs : h.All Cache.Shape) : h.Admits e := by
  obtain ⟨-, -, hrow⟩ := hd
  have row_lt : ∀ c : Cache, c.Shape → e.rowIndex = (c.decompose a).row → e.rowIndex < c.geom.numRows :=
    fun c hc hr => by rw [hr, ← hc.2.1]; exact hc.row_lt a
  obtain ⟨level, kind, pc', a', row⟩ := e
  cases h with
  | none => exact hrow
  | l1 c1 =>
    cases level with
    | l1 => exact row_lt c1 hs hrow
    | l2 => exact hrow
  | l1l2 c1 c2 =>
    cases level with
    | l1 => exact row_lt c1 hs.1 hrow
    | l2 => exact row_lt c2 hs.2 hrow

/-- Which events a hierarchy admits depends on its configuration alone. -/
theorem Hierarchy.Admits.of_config {h h' : Hierarchy} {e : CacheEvent} (hc : h'.config = h.config)
    (ha : h.Admits e) : h'.Admits e := by
  obtain ⟨level, kind, pc, a, row⟩ := e
  cases h with
  | none => exact ha.elim
  | l1 c1 =>
    cases h' with
    | none => cases hc
    | l1l2 c1' c2' => cases hc
    | l1 c1' =>
      injection hc with hg
      cases level with
      | l1 => exact (congrArg (row < ·.numRows) hg).mpr ha
      | l2 => exact ha.elim
  | l1l2 c1 c2 =>
    cases h' with
    | none => cases hc
    | l1 c1' => cases hc
    | l1l2 c1' c2' =>
      injection hc with hg1 hg2
      cases level with
      | l1 => exact (congrArg (row < ·.numRows) hg1).mpr ha
      | l2 => exact (congrArg (row < ·.numRows) hg2).mpr ha

theorem Hierarchy.All.mono {P Q : Cache → Prop} (hPQ : ∀ c, P c → Q c) {h : Hierarchy} (hP : h.All P) : h.All Q := by
  cases h with
  | none => trivial
  | l1 c1 => exact hPQ c1 hP
  | l1l2 c1 c2 => exact ⟨hPQ c1 hP.1, hPQ c2 hP.2⟩

theorem Hierarchy.All.and {P Q : Cache → Prop} {h : Hierarchy} (hP : h.All P) (hQ : h.All Q) :
    h.All fun c => P c ∧ Q c := by
  cases h with
  | none => trivial
  | l1 c1 => exact ⟨hP, hQ⟩
  | l1l2 c1 c2 => exact ⟨⟨hP.1, hQ.1⟩, hP.2, hQ.2⟩

end Sys2Proof.Machine

end HierarchyAnswers

section InstructionEffects

namespace Sys2Proof.Machine

/-- What an instruction can make of a state, one case per kind of effect (R231). The value a computation writes is left
open: the rules of 40_alu.md give it. -/
inductive Effect (s : State) : Instr → State → Prop
  | compute {i : Instr} {d : Reg} (v : Word) (alu : isAlu i = true) (dest : destination i = some d) :
      Effect s i (s.retire d v)
  | halt : Effect s (.j s.pc) s.halt
  | jump {imm13 : Addr} (away : imm13 ≠ s.pc) : Effect s (.j imm13) (s.setPc imm13)
  | link (imm13 : Addr) : Effect s (.jal imm13) ((s.writeReg linkReg (addrToWord (nextPc s.pc))).setPc imm13)
  | jumpRegister (a : Reg) : Effect s (.jr a) (s.setPc (registerTarget (s.readReg a)))
  | branch {a b : Reg} (imm7 : BitVec 7) (equal : s.readReg a = s.readReg b) :
      Effect s (.jeq a b imm7) (s.setPc (branchTarget s.pc imm7))
  | noBranch {a b : Reg} (imm7 : BitVec 7) (unequal : s.readReg a ≠ s.readReg b) : Effect s (.jeq a b imm7) s.advance
  | load (d : Reg) {a : Reg} {imm7 : BitVec 7} {ea : Addr} (v : Word)
      (address : ea = effectiveAddress (s.readReg a) imm7) :
      Effect s (.lw d a imm7) ((s.afterHier (s.hierLoad ea)).retire d v)
  | store (src : Reg) {a : Reg} {imm7 : BitVec 7} {ea : Addr} (address : ea = effectiveAddress (s.readReg a) imm7) :
      Effect s (.sw src a imm7) (s.hierStore ea (s.readReg src)).advance

/-- Every instruction has one of these effects. -/
theorem exec_effect {i : Instr} {s t : State} (h : exec i s = .next t) : Effect s i t := by
  cases i
  case j imm13 =>
    by_cases he : imm13 = s.pc
    · subst he
      simp only [exec, execJ, if_true] at h
      cases h
      exact .halt
    · simp only [exec, execJ, he, if_false] at h
      cases h
      exact .jump he
  case jal imm13 => cases h; exact .link imm13
  case jr a => cases h; exact .jumpRegister a
  case jeq a b imm7 =>
    by_cases he : s.readReg a = s.readReg b
    · simp only [exec, execJeq, he, if_true] at h
      cases h
      exact .branch imm7 he
    · simp only [exec, execJeq, he, if_false] at h
      cases h
      exact .noBranch imm7 he
  case lw d a imm7 => cases h; exact .load d _ rfl
  case sw src a imm7 => cases h; exact .store src rfl
  all_goals cases h; exact .compute _ rfl rfl

/-- Every instruction completes (R205). -/
theorem exec_completes (i : Instr) (s : State) : ∃ t, exec i s = .next t := by
  cases i
  case j imm13 => simp only [exec, execJ]; split <;> exact ⟨_, rfl⟩
  case jeq a b imm7 => simp only [exec, execJeq]; split <;> exact ⟨_, rfl⟩
  all_goals exact ⟨_, rfl⟩

namespace Effect

variable {s t : State} {i : Instr}

theorem params (h : Effect s i t) : t.params = s.params := by
  cases h <;> rfl

/-- The status changes by HALT alone (R152, R153). -/
theorem status (h : Effect s i t) : t.status = s.status ∨ (i = .j s.pc ∧ t.status = .halted) := by
  cases h
  case halt => exact .inr ⟨rfl, rfl⟩
  all_goals exact .inl rfl

/-- A register that is not the destination reads as before (R23). -/
theorem readReg (h : Effect s i t) {r : Reg} (hr : destination i ≠ some r) : t.readReg r = s.readReg r := by
  cases h
  case compute d v alu dest =>
    exact s.readReg_writeReg_ne d r v fun e => hr (dest.trans (congrArg some e.symm))
  case link imm13 => exact s.readReg_writeReg_ne _ r _ fun e => hr (congrArg some e.symm)
  case load d a imm7 ea v address =>
    exact (s.afterHier (s.hierLoad ea)).readReg_writeReg_ne d r v fun e => hr (congrArg some e.symm)
  all_goals rfl

/-- The stored register 0 is never written (R21). -/
theorem regs_zero (h : Effect s i t) : t.regs[0] = s.regs[0] := by
  cases h
  case compute d v alu dest => exact s.writeReg_regs_zero d v
  case link imm13 => exact s.writeReg_regs_zero _ _
  case load d a imm7 ea v address => exact (s.afterHier (s.hierLoad ea)).writeReg_regs_zero d v
  all_goals rfl

theorem mem_wf (h : Effect s i t) (hwf : s.mem.wf) : t.mem.wf := by
  cases h
  case store src a imm7 ea address => exact s.hierStore_wf hwf ea _
  all_goals exact hwf

/-- The caches and the log change only by one answer of the hierarchy, to a `lw` or a `sw` (R87). -/
theorem caches (h : Effect s i t) :
    KeepsCaches s t ∨ (reachesHierarchy i = true ∧
      ∃ a r, s.hier.Answers s.pc a r ∧ t.hier = r.hier ∧ t.events = s.events ++ r.events) := by
  cases h
  case load d a imm7 ea v address => exact .inr ⟨rfl, ea, _, ⟨s.readMem ea, .inl rfl⟩, rfl, rfl⟩
  case store src a imm7 ea address => exact .inr ⟨rfl, ea, _, ⟨s.readReg src, .inr rfl⟩, rfl, rfl⟩
  all_goals exact .inl ⟨rfl, rfl⟩

end Effect

/-- Settles O31. -/
theorem onlyDestinationChanges : Obligations.OnlyDestinationChanges :=
  fun _ _ _ h _ hr => (exec_effect h).readReg hr

/-- Settles O14: an instruction with destination 0 keeps register 0, which reads 0 in every state, and as any
instruction does the registers that are not its destination. -/
theorem registerZeroHardwired : Obligations.RegisterZeroHardwired := by
  refine ⟨State.readReg_zero, State.writeReg_zero, fun i s hd => ?_⟩
  obtain ⟨t, ht⟩ := exec_completes i s
  refine ⟨t, ht, t.readReg_zero, fun r => ?_⟩
  by_cases hr : r = 0#3
  · rw [hr, State.readReg_zero, State.readReg_zero]
  · exact (exec_effect ht).readReg fun e => hr (Option.some.inj (e.symm.trans hd))

end Sys2Proof.Machine

end InstructionEffects

section ProgramCounter

namespace Sys2Proof.Machine

/-- The address after the pc, wrapped, as a number (R26). -/
theorem nextPc_toNat (pc : Addr) : (nextPc pc).toNat = (pc.toNat + 1) % 8192 := by
  have := wrap13_toNat (pc.toNat + 1)
  unfold nextPc
  omega

/-- The target of `jr` as a number (R158). -/
theorem registerTarget_toNat (v : Word) : (registerTarget v).toNat = v.toNat % 8192 := by
  have := wrap13_toNat v.toNat
  unfold registerTarget
  omega

/-- The taken target of `jeq` as a number (R162). -/
theorem branchTarget_toNat (pc : Addr) (imm7 : BitVec 7) :
    ((branchTarget pc imm7).toNat : Int) = (pc.toNat + 1 + sext7 imm7) % 8192 :=
  wrap13_toNat _

/-- Falling through at the last address goes to address 0 (R26). -/
theorem FallsThrough.wraps {s t : State} (h : FallsThrough s t) (hpc : s.pc = 8191#13) : t.pc = 0#13 := by
  rw [FallsThrough, hpc] at h
  exact BitVec.eq_of_toNat_eq h

namespace Effect

variable {s t : State} {i : Instr}

/-- An instruction that does not set the pc advances it (R26, R231). -/
theorem fallsThrough (h : Effect s i t) (hi : setsPc i = false) : FallsThrough s t := by
  cases h
  case compute | load | store => exact nextPc_toNat s.pc
  all_goals cases hi

theorem pc_of_j {imm13 : Addr} (h : Effect s (.j imm13) t) : t.pc = imm13 := by
  cases h
  case compute alu _ => cases alu
  case halt => rfl
  case jump => rfl

theorem pc_of_jal {imm13 : Addr} (h : Effect s (.jal imm13) t) : t.pc = imm13 := by
  cases h
  case compute alu _ => cases alu
  case link => rfl

theorem pc_of_jr {a : Reg} (h : Effect s (.jr a) t) : t.pc.toNat = (s.readReg a).toNat % 8192 := by
  cases h
  case compute alu _ => cases alu
  case jumpRegister => exact registerTarget_toNat _

theorem pc_of_jeq {a b : Reg} {imm7 : BitVec 7} (h : Effect s (.jeq a b imm7) t) :
    (t.pc.toNat : Int) =
      if s.readReg a = s.readReg b then (s.pc.toNat + 1 + sext7 imm7) % 8192 else (s.pc.toNat + 1) % 8192 := by
  cases h
  case compute alu _ => cases alu
  case branch equal =>
    rw [if_pos equal]
    exact branchTarget_toNat s.pc imm7
  case noBranch unequal =>
    rw [if_neg unequal]
    exact congrArg Nat.cast (nextPc_toNat s.pc)

end Effect

/-- Settles O30: a decode error keeps the pc, the four jumps set it, every other instruction falls through. -/
theorem pcAdvancesOrJumps : Obligations.PcAdvancesOrJumps := by
  intro s t hstep
  refine ⟨t.pc.isLt, ?_⟩
  obtain ⟨-, ⟨i, hi, hexec⟩ | ⟨⟨e, he⟩, rfl⟩⟩ := step_cases hstep
  · have heff := exec_effect hexec
    rw [hi]
    cases i
    case j imm13 => exact heff.pc_of_j
    case jal imm13 => exact heff.pc_of_jal
    case jr a => exact heff.pc_of_jr
    case jeq a b imm7 => exact heff.pc_of_jeq
    all_goals exact ⟨heff.fallsThrough rfl, (heff.fallsThrough rfl).wraps⟩
  · rw [he]
    rfl

end Sys2Proof.Machine

end ProgramCounter

section StepEffects

namespace Sys2Proof.Machine

variable {s t : State}

/-- A step is an effect of the instruction it decoded, or takes DecodeError. -/
theorem step_effect (h : step s = .next t) :
    (∃ i, s.decodeFetched = .ok i ∧ Effect s i t) ∨ t = s.raiseDecodeError s.fetch := by
  obtain ⟨-, ⟨i, hi, hexec⟩ | ⟨-, ht⟩⟩ := step_cases h
  · exact .inl ⟨i, hi, exec_effect hexec⟩
  · exact .inr ht

theorem step_params (h : step s = .next t) : t.params = s.params := by
  obtain ⟨i, -, heff⟩ | rfl := step_effect h
  · exact heff.params
  · rfl

/-- A step changes caches and log only by one answer of the hierarchy, when it ran a `lw` or a `sw` (R87). -/
theorem step_caches (h : step s = .next t) :
    KeepsCaches s t ∨ ((∃ i, s.decodeFetched = .ok i ∧ reachesHierarchy i = true) ∧
      ∃ a r, s.hier.Answers s.pc a r ∧ t.hier = r.hier ∧ t.events = s.events ++ r.events) := by
  obtain ⟨i, hi, heff⟩ | rfl := step_effect h
  · exact heff.caches.imp_right fun ⟨hreach, hanswer⟩ => ⟨⟨i, hi, hreach⟩, hanswer⟩
  · exact .inl ⟨rfl, rfl⟩

theorem step_config (h : step s = .next t) : t.hier.config = s.hier.config := by
  obtain ⟨hhier, -⟩ | ⟨-, a, r, hr, hhier, -⟩ := step_caches h
  · rw [hhier]
  · rw [hhier, hr.config]

/-- Settles O57. -/
theorem configurationIsFixed : Obligations.ConfigurationIsFixed :=
  fun _ _ h => ⟨step_params h, step_config h⟩

/-- Settles O52: the events a step appends are those of one answer of the hierarchy. -/
theorem eventLogOnlyGrows : Obligations.EventLogOnlyGrows := by
  intro s t hstep
  obtain ⟨-, hevents⟩ | ⟨hi, a, r, hr, -, hevents⟩ := step_caches hstep
  · exact ⟨[], by simpa using hevents, by simp, by simp, fun h => absurd rfl h⟩
  · exact ⟨r.events, hevents, hr.events_length_le, fun e he => (hr.describes e he).1, fun _ => hi⟩

/-- HALT: a `j` to its own address (R151). -/
theorem exec_j_self (s : State) : exec (.j s.pc) s = .next s.halt := by
  simp [exec, execJ]

/-- A running core ends Halted or Faulted by its step as R36 says. -/
theorem step_status_iff (hrun : s.status = .running) (h : step s = .next t) :
    (t.status = .halted ↔ s.decodeFetched = .ok (.j s.pc)) ∧
      ∀ pc word, t.status = .faulted pc word ↔ (pc = s.pc ∧ word = s.fetch ∧ ∃ e, s.decodeFetched = .error e) := by
  obtain ⟨-, ⟨i, hi, hexec⟩ | ⟨⟨e, he⟩, rfl⟩⟩ := step_cases h
  · rw [hi]
    by_cases hj : i = .j s.pc
    · subst hj
      rw [exec_j_self] at hexec
      cases hexec
      simp
    · have hstatus : t.status = .running := by
        obtain hkeep | ⟨hhalt, -⟩ := (exec_effect hexec).status
        · rw [hkeep, hrun]
        · exact absurd hhalt hj
      simp [hstatus, hj]
  · simp [he, eq_comm]

/-- Settles O56. -/
theorem runStatusLifecycle : Obligations.RunStatusLifecycle := by
  refine ⟨fun config params mode seed image s h => ?_, fun s hrun => ?_, fun s hend t hstep => ?_⟩
  · obtain ⟨-, -, rfl⟩ := launch_cases h
    rfl
  · obtain ⟨t, ht⟩ := step_of_running hrun
    exact ⟨t, ht, step_status_iff hrun ht⟩
  · have hrun := (step_cases hstep).1
    obtain hhalted | ⟨pc, word, hfaulted⟩ := hend
    · cases hrun.symm.trans hhalted
    · cases hrun.symm.trans hfaulted

end Sys2Proof.Machine

end StepEffects

section InvariantKept

namespace Sys2Proof.Machine

variable {s t : State}

theorem step_keeps_mem_wf (hwf : s.mem.wf) (h : step s = .next t) : t.mem.wf := by
  obtain ⟨i, -, heff⟩ | rfl := step_effect h
  · exact heff.mem_wf hwf
  · exact hwf

theorem step_keeps_regs_zero (h : step s = .next t) : t.regs[0] = s.regs[0] := by
  obtain ⟨i, -, heff⟩ | rfl := step_effect h
  · exact heff.regs_zero
  · rfl

theorem step_keeps_levels_wf (hwf : s.hier.All Cache.Wf) (h : step s = .next t) : t.hier.All Cache.Wf := by
  obtain ⟨hhier, -⟩ | ⟨-, a, r, hr, hhier, -⟩ := step_caches h
  · rw [hhier]
    exact hwf
  · rw [hhier]
    exact hr.all (fun c a pd isWrite hc => hc.access a pd isWrite) hwf

/-- Old events stay admitted, as the configuration stays; new ones name the row of their address (R37). -/
theorem step_keeps_events_admitted (hwf : s.hier.All Cache.Wf) (hadm : ∀ e ∈ s.events, s.hier.Admits e)
    (h : step s = .next t) : ∀ e ∈ t.events, t.hier.Admits e := by
  intro e he
  refine Hierarchy.Admits.of_config (step_config h) ?_
  obtain ⟨-, hevents⟩ | ⟨-, a, r, hr, -, hevents⟩ := step_caches h
  · exact hadm e (hevents ▸ he)
  · rw [hevents] at he
    rcases List.mem_append.mp he with hold | hnew
    · exact hadm e hold
    · exact (hr.describes e hnew).admits (hwf.mono fun c hc => hc.1)

/-- Settles O58: each part of the invariant is kept on its own. -/
theorem stepKeepsInvariant : Obligations.StepKeepsInvariant := by
  rintro s t ⟨hmem, hzero, hlevels, hevents⟩ h
  exact ⟨step_keeps_mem_wf hmem h, (step_keeps_regs_zero h).trans hzero, step_keeps_levels_wf hlevels h,
    step_keeps_events_admitted hlevels hevents h⟩

end Sys2Proof.Machine

end InvariantKept

section CachesInvisible

namespace Sys2Proof.Machine

/-- With blocks of one word, tag and row give the address back (R52, R80). -/
theorem Cache.Shape.address_eq {c : Cache} (h : c.Shape) (hb : c.geom.blocksize = 1) (a : Addr) :
    (c.decompose a).tag * c.geom.numRows + (c.decompose a).row = a.toNat := by
  have hvalid := h.1
  simp only [Geometry.valid, Bool.and_eq_true] at hvalid
  obtain ⟨-, hrows⟩ := hvalid
  have hpow := isPow2_eq hrows
  simp only [Cache.decompose, Machine.decompose, hb]
  generalize Nat.log2 c.geom.numRows = k at hpow ⊢
  rw [hpow, Nat.and_two_pow_sub_one_eq_mod]
  simp [Nat.shiftRight_eq_div_pow, show Nat.log2 1 = 0 from rfl, Nat.div_add_mod']

/-- A read hit in a level that mirrors memory answers the memory word (R80). -/
theorem Cache.Mirrors.read_hit {c : Cache} {m : Memory} (hm : c.Mirrors m) (hs : c.Shape) {a : Addr} {d : Word}
    (hd : (c.access a 0#16 false).data = some d) : d = m.read a.toNat := by
  obtain ⟨hb, hslots⟩ := hm
  obtain ⟨i, b, -, -, ⟨hf, rfl, hdata⟩ | ⟨-, -, -, hdata⟩⟩ := c.access_cases a 0#16 false
  · obtain ⟨-, hv, ht⟩ := findSlot_spec hf
    rw [hdata] at hd
    cases hd
    have hslot := hslots _ _ hv
    rw [show (c.slot (c.decompose a).row i).tag = _ from ht, hs.address_eq hb] at hslot
    exact hslot
  · rw [hdata] at hd
    cases hd

/-- A load through levels that mirror memory answers the memory word (R80). -/
theorem Hierarchy.load_value_of_mirrors {h : Hierarchy} {m : Memory}
    (hall : h.All fun c => c.Shape ∧ c.Mirrors m) (pc a : Addr) :
    (h.load pc a (m.read a.toNat)).value = m.read a.toNat := by
  cases h with
  | none => rfl
  | l1 c1 =>
    obtain ⟨hs, hm⟩ := hall
    cases hd : (c1.access a 0#16 false).data with
    | some d => rw [load_l1_hit pc _ hd]; exact hm.read_hit hs hd
    | none => rw [load_l1_miss pc _ hd]
  | l1l2 c1 c2 =>
    obtain ⟨⟨hs, hm⟩, hs2, hm2⟩ := hall
    cases hd : (c1.access a 0#16 false).data with
    | some d => rw [load_l1l2_hit pc _ hd]; exact hm.read_hit hs hd
    | none =>
      cases hd2 : (c2.access a 0#16 false).data with
      | some d => rw [load_l1l2_hit_l2 pc _ hd hd2]; exact hm2.read_hit hs2 hd2
      | none => rw [load_l1l2_miss pc _ hd hd2]

theorem State.Transparent.hierLoad_value {s : State} (h : s.Transparent) (a : Addr) :
    (s.hierLoad a).value = s.readMem a := by
  obtain ⟨⟨-, -, hwf, -⟩, hmirrors⟩ := h
  exact Hierarchy.load_value_of_mirrors ((hwf.mono fun c hc => hc.1).and hmirrors) s.pc a

/-- Settles O53. -/
theorem transparentLoadsReturnMemory : Obligations.TransparentLoadsReturnMemory :=
  fun _ a h => h.hierLoad_value a

theorem loadValue_self (source : LoadValueSource) (v : Word) : loadValue source v v = v := by
  cases source <;> rfl

/-- The value `lw` writes is the memory word, when the caches are transparent or LOAD_VALUE_SOURCE is memory
(R79, R80). -/
theorem loadValue_eq_readMem {s : State} (h : s.Transparent ∨ s.params.loadValueSource = .memory) (a : Addr) :
    loadValue s.params.loadValueSource (s.hierLoad a).value (s.readMem a) = s.readMem a := by
  obtain htrans | hsource := h
  · rw [htrans.hierLoad_value, loadValue_self]
  · rw [hsource]
    rfl

@[simp] theorem State.withoutCaches_pc (s : State) : s.withoutCaches.pc = s.pc := rfl
@[simp] theorem State.withoutCaches_status (s : State) : s.withoutCaches.status = s.status := rfl
@[simp] theorem State.readReg_withoutCaches (s : State) (r : Reg) : s.withoutCaches.readReg r = s.readReg r := rfl
@[simp] theorem State.decodeFetched_withoutCaches (s : State) :
    s.withoutCaches.decodeFetched = s.decodeFetched := rfl

/-- Without caches a `lw` writes the memory word (R69). -/
theorem exec_lw_withoutCaches (d a : Reg) (imm7 : BitVec 7) (s : State) :
    exec (.lw d a imm7) s.withoutCaches =
      .next (s.withoutCaches.retire d (s.readMem (effectiveAddress (s.readReg a) imm7))) :=
  congrArg (fun v => Host.Outcome.next (s.withoutCaches.retire d v)) (loadValue_self s.params.loadValueSource _)

/-- An instruction commutes with forgetting the caches, if what a load writes does not depend on them. -/
theorem exec_withoutCaches {i : Instr} {s t : State}
    (hload : ∀ a, loadValue s.params.loadValueSource (s.hierLoad a).value (s.readMem a) = s.readMem a)
    (h : exec i s = .next t) : exec i s.withoutCaches = .next t.withoutCaches := by
  cases i
  case lw d a imm7 =>
    simp only [exec, execLw, hload] at h
    cases h
    exact exec_lw_withoutCaches d a imm7 s
  case j imm13 =>
    simp only [exec, execJ, State.withoutCaches_pc] at h ⊢
    split at h
    · rename_i he; cases h; exact if_pos he
    · rename_i he; cases h; exact if_neg he
  case jeq a b imm7 =>
    simp only [exec, execJeq, State.readReg_withoutCaches] at h ⊢
    split at h
    · rename_i he; cases h; exact if_pos he
    · rename_i he; cases h; exact if_neg he
  all_goals cases h; rfl

/-- Settles O60: forgetting the caches commutes with the step, as fetch and decode never see them and a load writes
the memory word. -/
theorem cachesAreInvisible : Obligations.CachesAreInvisible := by
  intro s t hview hstep
  obtain ⟨hrun, ⟨i, hi, hexec⟩ | ⟨⟨e, he⟩, rfl⟩⟩ := step_cases hstep
  · rw [step_of_ok (i := i) (by simpa using hrun) (by simpa using hi)]
    exact exec_withoutCaches (loadValue_eq_readMem hview) hexec
  · exact step_of_error (e := e) (by simpa using hrun) (by simpa using he)

end Sys2Proof.Machine

end CachesInvisible

section LaunchState

namespace Sys2Proof.Machine

/-- An image lists only addresses from its base up to its end, and no word 0. -/
theorem Memory.ofImage_bounds {base : Nat} {image : List Word} {c : Nat × Word} (h : c ∈ Memory.ofImage base image) :
    base ≤ c.1 ∧ c.1 < base + image.length ∧ c.2 ≠ 0#16 := by
  induction image generalizing base with
  | nil => cases h
  | cons v image ih =>
    have htail : c ∈ Memory.ofImage (base + 1) image →
        base ≤ c.1 ∧ c.1 < base + (v :: image).length ∧ c.2 ≠ 0#16 := fun hc => by
      obtain ⟨hlo, hhi, hne⟩ := ih hc
      rw [List.length_cons]
      exact ⟨by omega, by omega, hne⟩
    simp only [Memory.ofImage] at h
    split at h
    · exact htail h
    · rename_i hv
      rcases List.mem_cons.mp h with rfl | hc
      · exact ⟨Nat.le_refl _, by simp, hv⟩
      · exact htail hc

theorem Memory.ofImage_rising (base : Nat) (image : List Word) :
    (Memory.ofImage base image).Pairwise (fun x y => x.1 < y.1) := by
  induction image generalizing base with
  | nil => exact List.Pairwise.nil
  | cons v image ih =>
    simp only [Memory.ofImage]
    split
    · exact ih _
    · exact List.pairwise_cons.mpr ⟨fun c hc => (Memory.ofImage_bounds hc).1, ih _⟩

/-- An image that fits is memory in canonical form (R40). -/
theorem Memory.ofImage_wf {image : List Word} (h : image.length ≤ memSize) : (Memory.ofImage 0 image).wf := by
  refine ⟨Memory.ofImage_rising 0 image, fun c hc => ?_⟩
  obtain ⟨-, hhi, hne⟩ := Memory.ofImage_bounds hc
  exact ⟨by omega, hne⟩

/-- The image stands word by word from its base, zeros after it (R40). -/
theorem Memory.read_ofImage (base k : Nat) (image : List Word) :
    (Memory.ofImage base image).read (base + k) = image.getD k 0#16 := by
  induction image generalizing base k with
  | nil => rfl
  | cons v image ih =>
    cases k with
    | zero =>
      by_cases hv : v = 0#16
      · subst hv
        simp only [Memory.ofImage, if_true]
        exact Memory.read_of_lt fun c hc => (Memory.ofImage_bounds hc).1
      · simp [Memory.ofImage, Memory.read, hv]
    | succ k =>
      have htail : (Memory.ofImage (base + 1) image).read (base + (k + 1)) = image.getD k 0#16 := by
        rw [← ih (base + 1) k, Nat.add_right_comm, Nat.add_assoc]
      by_cases hv : v = 0#16 <;> simpa [Memory.ofImage, Memory.read, hv] using htail

theorem imageFits_iff {image : List Word} : imageFits image = true ↔ image.length ≤ 8192 := by
  simp [imageFits, memSize]

/-- A launch whose checks pass builds a state whose memory is the image (R40). -/
theorem launch_of_valid {config : CacheConfig} {image : List Word} (hconfig : config.MeetsR9)
    (himage : image.length ≤ 8192) (params : Params) (mode : RegReset) (seed : Nat) :
    ∃ s, launch config params mode seed image = .ok s ∧ s.mem = Memory.ofImage 0 image := by
  simp [launch, config_valid_iff_meetsR9.mpr hconfig, imageFits_iff.mpr himage]

/-- Settles O6. -/
theorem launchPlacesImage : Obligations.LaunchPlacesImage := by
  intro config params mode seed image
  refine ⟨fun hconfig himage => ?_, fun hlong s h => ?_⟩
  · obtain ⟨s, hs, hmem⟩ := launch_of_valid hconfig himage params mode seed
    refine ⟨s, hs, fun a => ?_⟩
    have hread := Memory.read_ofImage 0 a.toNat image
    rw [Nat.zero_add] at hread
    rw [State.readMem, hmem, hread, List.getD_eq_getElem?_getD]
    split <;> simp [*]
  · obtain ⟨-, hfits, -⟩ := launch_cases h
    exact absurd (imageFits_iff.mp hfits) (Nat.not_le_of_lt hlong)

/-- Settles O7. -/
theorem launchStartsRunningOrNotAtAll : Obligations.LaunchStartsRunningOrNotAtAll := by
  intro config params mode seed image
  refine ⟨fun s h => ?_, fun hconfig => ?_⟩
  · obtain ⟨-, -, rfl⟩ := launch_cases h
    exact ⟨rfl, rfl⟩
  · rw [launch_eq_configurationError_iff, ← Bool.not_eq_true, config_valid_iff_meetsR9]
    exact hconfig

/-- What holds of a freshly built level of each geometry of a configuration holds of the hierarchy at reset (R43). -/
theorem Hierarchy.all_empty {P : Cache → Prop} {config : CacheConfig}
    (hP : ∀ g, (config.valid = true → g.valid = true) → P (Cache.empty g)) : (Hierarchy.empty config).All P := by
  cases config with
  | none => trivial
  | l1 g1 => exact hP g1 id
  | l1l2 g1 g2 =>
    exact ⟨hP g1 fun h => (Bool.and_eq_true _ _ ▸ h).1, hP g2 fun h => (Bool.and_eq_true _ _ ▸ h).2⟩

/-- Each register reads what the reset gives it (R42). -/
theorem resetRegs_get (mode : RegReset) (seed : Nat) (r : Reg) :
    (resetRegs mode seed)[r.toNat]'r.isLt = resetReg mode seed r := by
  simp [resetRegs]

/-- Settles O10. -/
theorem launchResetValues : Obligations.LaunchResetValues := by
  intro config params mode seed image s h
  obtain ⟨-, -, rfl⟩ := launch_cases h
  refine ⟨rfl, rfl, fun hmode r => ?_, fun hmode r hr => ?_, Hierarchy.empty_config config, rfl,
    Hierarchy.all_empty fun g _ => ⟨rfl, Cache.empty_slot g⟩⟩
  · simp [State.readReg, resetRegs_get, hmode, resetReg]
  · simp [State.readReg, resetRegs_get, hmode, resetReg, hr]

/-- Settles O13: a row without a valid slot lacks every tag. -/
theorem emptyRowsMiss : Obligations.EmptyRowsMiss := by
  refine ⟨fun c a pd w hrow => ?_, fun g r i => by rw [Cache.empty_slot]; rfl⟩
  have hlacks : c.Lacks a := fun i hv => absurd hv (by simp [hrow i])
  rw [c.access_miss a pd w (Cache.findSlot_eq_none_iff.mpr hlacks)]

theorem Cache.empty_shape {g : Geometry} (h : g.valid = true) : (Cache.empty g).Shape := by
  refine ⟨h, by simp [Cache.empty], fun row hrow => ?_⟩
  rw [List.eq_of_mem_replicate hrow, List.length_replicate]
  rfl

/-- A level built with a valid geometry is well formed (R63, R64). -/
theorem Cache.empty_wf {g : Geometry} (h : g.valid = true) : (Cache.empty g).Wf := by
  have hinvalid : ∀ r i, ((Cache.empty g).slot r i).valid ≠ true := fun r i => by simp [CacheBlock.empty]
  exact ⟨Cache.empty_shape h,
    ⟨fun r i hv => absurd hv (hinvalid r i), fun r i _ => by simp [CacheBlock.empty],
      fun r i _ _ hv => absurd hv (hinvalid r i)⟩,
    fun r i _ hv => absurd hv (hinvalid r i), fun r i => by simp [CacheBlock.empty]⟩

/-- A level at reset holds no valid slot, so with blocks of one word it mirrors any memory (R80). -/
theorem Cache.empty_mirrors {g : Geometry} (h : g.blocksize = 1) (m : Memory) : (Cache.empty g).Mirrors m :=
  ⟨h, fun r i hv => absurd hv (by simp [CacheBlock.empty])⟩

theorem Hierarchy.empty_all_wf {config : CacheConfig} (h : config.valid = true) :
    (Hierarchy.empty config).All Cache.Wf :=
  Hierarchy.all_empty fun _ hg => Cache.empty_wf (hg h)

theorem Hierarchy.empty_all_mirrors {config : CacheConfig} (h : config.UnitBlocks) (m : Memory) :
    (Hierarchy.empty config).All fun c => c.Mirrors m := by
  cases config with
  | none => trivial
  | l1 g1 => exact Cache.empty_mirrors h m
  | l1l2 g1 g2 => exact ⟨Cache.empty_mirrors h.1 m, Cache.empty_mirrors h.2 m⟩

theorem launch_inv {config : CacheConfig} {params : Params} {mode : RegReset} {seed : Nat} {image : List Word}
    {s : State} (h : launch config params mode seed image = .ok s) : s.Inv := by
  obtain ⟨hconfig, hfits, rfl⟩ := launch_cases h
  refine ⟨Memory.ofImage_wf (imageFits_iff.mp hfits), ?_, Hierarchy.empty_all_wf hconfig, fun e he => by cases he⟩
  exact (resetRegs_get mode seed 0#3).trans (by cases mode <;> rfl)

/-- Settles O12. -/
theorem launchSatisfiesInvariant : Obligations.LaunchSatisfiesInvariant := by
  intro config params mode seed image s h
  refine ⟨launch_inv h, fun hunit => ⟨launch_inv h, ?_⟩⟩
  obtain ⟨-, -, rfl⟩ := launch_cases h
  exact Hierarchy.empty_all_mirrors hunit _

/-- Settles O11: the reset state is a launch. -/
theorem resetSatisfiesInvariant : Obligations.ResetSatisfiesInvariant :=
  launch_inv (launch_default 0)

end Sys2Proof.Machine

end LaunchState

/-! PROOFS. The statements of spec/20_memory.md: the address decomposer, what one access does to the slots of its level,
loads and stores through the hierarchy, and the caches as a mirror of memory. -/

section SlotsOfAnAccess

namespace Sys2Proof.Machine

/-- A hit as a change of one slot: the one lookup found is touched (R58). -/
theorem Cache.Shape.hit_restamps {c : Cache} (h : c.Shape) {a : Addr} {i : Nat}
    (hf : findSlot (c.row (c.decompose a).row) (c.decompose a).tag = some i) (pd : Word) (isWrite : Bool) :
    c.Restamped a i ((c.slot (c.decompose a).row i).touch (c.counter + 1) pd isWrite)
      (c.access a pd isWrite).cache := by
  obtain ⟨hi, hv, ht⟩ := findSlot_spec hf
  rw [h.row_length (h.row_lt a)] at hi
  exact ⟨by simp, by simp, by rw [c.access_hit a pd isWrite hf]; exact h.slot_rewrite a hi _ _, hv, ht, rfl,
    .inl ⟨hv, ht⟩⟩

/-- A miss as a change of one slot: the victim gets the tag installed (R59, R60). -/
theorem Cache.Shape.miss_restamps {c : Cache} (h : c.Shape) {a : Addr} (hl : c.Lacks a) (pd : Word) (isWrite : Bool) :
    c.Restamped a (victimSlot (c.row (c.decompose a).row))
      ((c.slot (c.decompose a).row (victimSlot (c.row (c.decompose a).row))).install (c.decompose a).tag
        (c.counter + 1) pd isWrite)
      (c.access a pd isWrite).cache := by
  have hf := Cache.findSlot_eq_none_iff.mpr hl
  exact ⟨by simp, by simp,
    by rw [c.access_miss a pd isWrite hf]; exact h.slot_rewrite a (h.victim_lt (h.row_lt a)) _ _, rfl, rfl, rfl,
    .inr hl⟩

/-- A write access leaves its value in a valid slot of its tag with the new stamp, hit or miss (R58, R60, R76). -/
theorem Cache.Shape.write_restamps {c : Cache} (h : c.Shape) (a : Addr) (v : Word) :
    ∃ i, c.Restamped a i { valid := true, tag := (c.decompose a).tag, recency := c.counter + 1, data := v }
      (c.access a v true).cache := by
  cases hf : findSlot (c.row (c.decompose a).row) (c.decompose a).tag with
  | none => exact ⟨_, h.miss_restamps (Cache.findSlot_eq_none_iff.mp hf) v true⟩
  | some i =>
    have hr := h.hit_restamps hf v true
    have hb : (c.slot (c.decompose a).row i).touch (c.counter + 1) v true =
        { valid := true, tag := (c.decompose a).tag, recency := c.counter + 1, data := v } := by
      simpa [CacheBlock.touch] using And.intro hr.valid hr.tag
    exact ⟨i, hb ▸ hr⟩

theorem Cache.access_data_of_lacks {c : Cache} {a : Addr} (hl : c.Lacks a) (pd : Word) (isWrite : Bool) :
    (c.access a pd isWrite).data = none := by
  rw [c.access_miss a pd isWrite (Cache.findSlot_eq_none_iff.mpr hl)]

/-- An access that answers no data missed (R57, R60). -/
theorem Cache.lacks_of_access_data {c : Cache} {a : Addr} {pd : Word} {isWrite : Bool}
    (h : (c.access a pd isWrite).data = none) : c.Lacks a := by
  have hsome := c.access_data_isSome a pd isWrite
  rw [h] at hsome
  exact Cache.findSlot_eq_none_iff.mp (Option.isNone_iff_eq_none.mp (by simpa using hsome.symm))

theorem Cache.Restamped.sameSlotsBut {c c' : Cache} {a : Addr} {i : Nat} {b : CacheBlock}
    (h : c.Restamped a i b c') : SameSlotsBut (c.decompose a).row i c c' :=
  fun _ _ hne => h.slot_other hne

/-- Once an access has restamped a slot, a lookup of the same address finds that slot, if no other slot of the row held
the tag before (R57, R64). -/
theorem Cache.Restamped.findSlot_again {c c' : Cache} {a : Addr} {i : Nat} {b : CacheBlock}
    (h : c.Restamped a i b c')
    (hfresh : ∀ j, j ≠ i → (c.slot (c.decompose a).row j).valid = true →
      (c.slot (c.decompose a).row j).tag ≠ (c.decompose a).tag) :
    findSlot (c'.row (c'.decompose a).row) (c'.decompose a).tag = some i := by
  have hd : c'.decompose a = c.decompose a := by rw [Cache.decompose, h.geom, ← Cache.decompose]
  refine Cache.findSlot_eq_some ?_ ?_ fun j hj => ?_ <;> rw [hd]
  · rw [h.slot_self, h.valid]
  · rw [h.slot_self, h.tag]
  · rw [h.slot_other fun hn => Nat.ne_of_lt hj hn.2]
    exact hfresh j (Nat.ne_of_lt hj)

/-- Settles O39. -/
theorem accessHit : Obligations.AccessHit := by
  intro c a pd isWrite i hs hv ht hleast
  have hf := Cache.findSlot_eq_some hv ht hleast
  have hr := hs.hit_restamps hf pd isWrite
  simp only [hr.slot_self]
  exact ⟨by simp, by rw [c.access_hit a pd isWrite hf], rfl, by rw [hr.counter, hr.stamp], rfl, rfl, hr.sameSlotsBut⟩

/-- Settles O40: the slot replaced is the model's victim. -/
theorem missReplacesLeastRecentlyUsed : Obligations.MissReplacesLeastRecentlyUsed := by
  intro c a pd isWrite hs hl
  have hr := hs.miss_restamps hl pd isWrite
  have hrow := hs.row_lt a
  exact ⟨_, hs.victim_lt hrow, fun j hj => hs.victim_le hrow hj, fun j hj => hs.victim_lt_of_lt hrow hj,
    by rw [hr.slot_self]; rfl, by rw [hr.slot_self]; rfl, hr.sameSlotsBut⟩

/-- Settles O41. -/
theorem missInstallsTag : Obligations.MissInstallsTag := by
  intro c a pd isWrite hs hl
  exact ⟨Cache.access_data_of_lacks hl pd isWrite, by simp, by simp, _, (hs.miss_restamps hl pd isWrite).slot_self⟩

/-- Settles O42: an access rewrites one row, and the fields it does not name stay. -/
theorem accessStaysInItsRow : Obligations.AccessStaysInItsRow := by
  intro c a pd isWrite
  refine ⟨fun r hr => ?_, by simp, by simp⟩
  obtain ⟨i, b, hc, -⟩ := c.access_cases a pd isWrite
  simp [hc, Cache.row, Ne.symm hr]

/-- Settles O43: an invalid slot's stamp is 0 and a valid one's is not, so the least stamp is an invalid slot's while
there is one; in a full row the stamps are distinct. -/
theorem invalidSlotsChosenFirst : Obligations.InvalidSlotsChosenFirst := by
  rintro c r ⟨hs, ⟨hrange, hzero, hdistinct⟩, -, -⟩ hr
  refine ⟨fun i hi hinv => ⟨?_, ?_⟩, fun hfull j hj hne => ?_⟩
  · by_contra hlt
    have := hs.victim_lt_of_lt hr (Nat.lt_of_not_le hlt)
    have := hzero r i hinv
    omega
  · by_contra hvalid
    have := (hrange r _ (Bool.not_eq_false _ ▸ hvalid)).1
    have := hs.victim_le hr hi
    have := hzero r i hinv
    omega
  · exact Nat.lt_of_le_of_ne (hs.victim_le hr hj) fun he =>
      hne (hdistinct r _ r j (hfull _ (hs.victim_lt hr)) (hfull j hj) he).2.symm

/-- After a probe that misses, the fill of the same address hits the slot the probe installed: together they leave one
slot of the row with the tag, the second new stamp and the filled value (R82). -/
theorem Cache.Shape.fill_after_miss {c : Cache} (h : c.Shape) {a : Addr} (hl : c.Lacks a) (v : Word) :
    ((c.access a 0#16 false).cache.access a v true).data = some v ∧
    ∃ i, ((c.access a 0#16 false).cache.access a v true).cache.slot (c.decompose a).row i =
        { valid := true, tag := (c.decompose a).tag, recency := c.counter + 2, data := v } ∧
      SameSlotsBut (c.decompose a).row i c ((c.access a 0#16 false).cache.access a v true).cache := by
  have hprobe := h.miss_restamps hl 0#16 false
  have hf := hprobe.findSlot_again fun j _ => hl j
  have hfill := (h.access a 0#16 false).hit_restamps hf v true
  refine ⟨by rw [Cache.access_hit _ a v true hf]; rfl, victimSlot (c.row (c.decompose a).row), ?_,
    fun r' i' hne => ?_⟩
  · have hself := hfill.slot_self
    rw [Cache.decompose_access, hprobe.slot_self, Cache.access_counter] at hself
    exact hself
  · rw [hfill.slot_other (by simpa using hne), hprobe.slot_other hne]

/-- Settles O44. -/
theorem fillFindsItsProbesSlot : Obligations.FillFindsItsProbesSlot := by
  intro c a v hs hl
  obtain ⟨hdata, hslot⟩ := hs.fill_after_miss hl v
  exact ⟨Cache.access_data_of_lacks hl _ _, hdata, by simp, hslot⟩

/-- After a write access, a read of the same address hits and answers the value written (R64, R84). -/
theorem Cache.Wf.read_after_write {c : Cache} (h : c.Wf) (a : Addr) (v : Word) :
    ((c.access a v true).cache.access a 0#16 false).data = some v := by
  obtain ⟨hs, -, hunique, -⟩ := h
  obtain ⟨i, hr⟩ := hs.write_restamps a v
  have hf := hr.findSlot_again fun j hj => hr.tag_fresh hunique hj
  rw [Cache.access_hit _ a 0#16 false hf, Cache.decompose_access, hr.slot_self]
  rfl

end Sys2Proof.Machine

end SlotsOfAnAccess

section Decomposer

namespace Sys2Proof.Machine

/-- The decomposer's shifts and masks as divisions and remainders (R52). -/
theorem decompose_two_pow (a : Addr) (offsetBits indexBits : Nat) :
    decompose a (2 ^ offsetBits) (2 ^ indexBits) =
      { tag := a.toNat / 2 ^ offsetBits / 2 ^ indexBits
        row := a.toNat / 2 ^ offsetBits % 2 ^ indexBits
        offset := a.toNat % 2 ^ offsetBits } := by
  simp [decompose, Nat.shiftRight_eq_div_pow, Nat.pow_add, Nat.div_div_eq_div_mul]

/-- An address has 13 bits: none stands above a shift by 13 or more. -/
theorem addr_shiftRight_eq_zero (a : Addr) {n : Nat} (h : 13 ≤ n) : a.toNat >>> n = 0 :=
  Nat.shiftRight_eq_zero _ _ (Nat.lt_of_lt_of_le a.isLt (Nat.pow_le_pow_right (by omega) h))

/-- Settles O38: the sum is two divisions with remainder. -/
theorem decomposerSplitsAddress : Obligations.DecomposerSplitsAddress := by
  intro a offsetBits indexBits
  have hsum : a.toNat = a.toNat / 2 ^ offsetBits / 2 ^ indexBits * 2 ^ offsetBits * 2 ^ indexBits +
      a.toNat / 2 ^ offsetBits % 2 ^ indexBits * 2 ^ offsetBits + a.toNat % 2 ^ offsetBits := by
    calc a.toNat = a.toNat / 2 ^ offsetBits * 2 ^ offsetBits + a.toNat % 2 ^ offsetBits :=
          (Nat.div_add_mod' _ _).symm
      _ = (a.toNat / 2 ^ offsetBits / 2 ^ indexBits * 2 ^ indexBits + a.toNat / 2 ^ offsetBits % 2 ^ indexBits) *
            2 ^ offsetBits + a.toNat % 2 ^ offsetBits := by rw [Nat.div_add_mod' (a.toNat / 2 ^ offsetBits)]
      _ = _ := by ring
  have hd := decompose_two_pow a offsetBits indexBits
  refine ⟨rfl, by simp [decompose], by simp [decompose], by rw [hd]; exact hsum,
    by rw [hd]; exact Nat.mod_lt _ (Nat.two_pow_pos _), by rw [hd]; exact Nat.mod_lt _ (Nat.two_pow_pos _),
    fun h => ?_, fun h => ?_⟩
  · simp [decompose, addr_shiftRight_eq_zero a h]
  · simp [decompose, addr_shiftRight_eq_zero a h]

end Sys2Proof.Machine

end Decomposer

section HierarchyCases

namespace Sys2Proof.Machine

/-- Settles O45. -/
theorem noCacheIsDirectAccess : Obligations.NoCacheIsDirectAccess := by
  intro s a v hnone
  simp [State.hierLoad, State.hierStore, State.afterHier, State.emit, State.writeMem, hnone]

/-- Settles O46: the cases are those of the lemmas on `Hierarchy.load`. -/
theorem hierLoadCases : Obligations.HierLoadCases := by
  intro c1 c2 pc a m
  exact ⟨fun d h => ⟨Hierarchy.load_l1_hit pc m h, Hierarchy.load_l1l2_hit pc m h⟩, Hierarchy.load_l1_miss pc m,
    fun h d h2 => Hierarchy.load_l1l2_hit_l2 pc m h h2, Hierarchy.load_l1l2_miss pc m⟩

/-- A store to a single level is one write access (R75). -/
@[simp] theorem Hierarchy.store_l1 (c1 : Cache) (pc a : Addr) (v : Word) :
    (Hierarchy.l1 c1).store pc a v =
      { hier := .l1 (c1.access a v true).cache
        events := [cacheEvent pc a .l1 .write (c1.decompose a).row]
        value := v } := by
  simp [Hierarchy.store]

/-- A store to two levels is one write access to each, L1 first (R75). -/
@[simp] theorem Hierarchy.store_l1l2 (c1 c2 : Cache) (pc a : Addr) (v : Word) :
    (Hierarchy.l1l2 c1 c2).store pc a v =
      { hier := .l1l2 (c1.access a v true).cache (c2.access a v true).cache
        events := [cacheEvent pc a .l1 .write (c1.decompose a).row, cacheEvent pc a .l2 .write (c2.decompose a).row]
        value := v } := by
  simp [Hierarchy.store]

/-- Settles O47. -/
theorem hierStoreCases : Obligations.HierStoreCases := by
  intro s a v
  refine ⟨rfl, rfl, rfl, rfl, rfl, fun c1 h => ?_, fun c1 c2 h => ?_⟩
  · rw [State.hierStore_hier, State.hierStore_events, h, Hierarchy.store_l1]
    exact ⟨rfl, _, rfl, rfl, rfl, rfl, rfl⟩
  · rw [State.hierStore_hier, State.hierStore_events, h, Hierarchy.store_l1l2]
    exact ⟨rfl, _, _, rfl, ⟨rfl, rfl, rfl, rfl⟩, rfl, rfl, rfl, rfl⟩

@[simp] theorem kinds_nil : kinds [] = [] := rfl

/-- The table of R77 shows an event by its level and kind. -/
@[simp] theorem kinds_cons (pc a : Addr) (level : LevelName) (kind : StatusKind) (row : Nat) (es : List CacheEvent) :
    kinds (cacheEvent pc a level kind row :: es) = (level, kind) :: kinds es := rfl

/-- Settles O48: the table has one row per outcome of the probes. -/
theorem eventSequences : Obligations.EventSequences := by
  intro h pc a m
  refine ⟨Hierarchy.Answers.describes ⟨m, .inl rfl⟩, Hierarchy.Answers.describes ⟨m, .inr rfl⟩, ?_⟩
  cases h with
  | none => exact ⟨rfl, rfl⟩
  | l1 c1 =>
    refine ⟨?_, rfl⟩
    cases hd : (c1.access a 0#16 false).data with
    | some d => simp [Hierarchy.load_l1_hit pc m hd]
    | none => simp [Hierarchy.load_l1_miss pc m hd]
  | l1l2 c1 c2 =>
    refine ⟨?_, rfl⟩
    cases hd : (c1.access a 0#16 false).data with
    | some d => simp [Hierarchy.load_l1l2_hit pc m hd]
    | none =>
      cases hd2 : (c2.access a 0#16 false).data with
      | some d => simp [Hierarchy.load_l1l2_hit_l2 pc m hd hd2]
      | none => simp [Hierarchy.load_l1l2_miss pc m hd hd2]

/-- Settles O49: each outcome of the probes shows its own events and makes its own number of accesses to each level. -/
theorem counterConsumption : Obligations.CounterConsumption := by
  intro c1 c2 pc a m
  refine ⟨?_, ?_, by simp, by simp⟩
  · cases hd : (c1.access a 0#16 false).data with
    | some d => simp [Hierarchy.load_l1_hit pc m hd]
    | none => simp [Hierarchy.load_l1_miss pc m hd]
  · cases hd : (c1.access a 0#16 false).data with
    | some d => simp [Hierarchy.load_l1l2_hit pc m hd]
    | none =>
      cases hd2 : (c2.access a 0#16 false).data with
      | some d => simp [Hierarchy.load_l1l2_hit_l2 pc m hd hd2]
      | none => simp [Hierarchy.load_l1l2_miss pc m hd hd2]

end Sys2Proof.Machine

end HierarchyCases

section ValidBits

namespace Sys2Proof.Machine

/-- What a level can only gain: counter and valid bits, with its geometry fixed (R56, R62). -/
def Cache.Grows (c c' : Cache) : Prop :=
  c'.geom = c.geom ∧ c.counter ≤ c'.counter ∧ ∀ r i, (c.slot r i).valid = true → (c'.slot r i).valid = true

theorem Cache.Grows.refl (c : Cache) : c.Grows c := ⟨rfl, Nat.le_refl _, fun _ _ h => h⟩

theorem Cache.Grows.trans {c c' c'' : Cache} (h : c.Grows c') (h' : c'.Grows c'') : c.Grows c'' := by
  obtain ⟨hgeom, hcounter, hvalid⟩ := h
  obtain ⟨hgeom', hcounter', hvalid'⟩ := h'
  exact ⟨hgeom'.trans hgeom, hcounter.trans hcounter', fun r i hv => hvalid' r i (hvalid r i hv)⟩

/-- A slot after one slot was rewritten holds the new block or what it held, whatever the level's shape (log 26). -/
theorem Cache.slot_set_cases (c : Cache) (n r i r' i' : Nat) (b : CacheBlock) :
    Cache.slot { c with counter := n, rows := c.rows.set r ((c.row r).set i b) } r' i' = b ∨
      Cache.slot { c with counter := n, rows := c.rows.set r ((c.row r).set i b) } r' i' = c.slot r' i' := by
  by_cases hin : r < c.rows.length ∧ i < (c.row r).length
  · rw [c.slot_set n r i r' i' b hin.1 hin.2]
    split
    · exact .inl rfl
    · exact .inr rfl
  · right
    rcases Nat.lt_or_ge r c.rows.length with hr | hr
    · have hrow : (c.row r).set i b = c.rows[r] := by
        rw [List.set_eq_of_length_le (by omega)]
        simp [Cache.row, hr]
      rw [hrow, List.set_getElem_self]
      rfl
    · rw [List.set_eq_of_length_le hr]
      rfl

/-- An access only gains: it rewrites one slot, by a valid block (R56, R58, R60, R62). -/
theorem Cache.grows_access (c : Cache) (a : Addr) (pd : Word) (isWrite : Bool) :
    c.Grows (c.access a pd isWrite).cache := by
  refine ⟨by simp, by simp, fun r i hv => ?_⟩
  obtain ⟨k, b, hc, -, hb⟩ := c.access_cases a pd isWrite
  have hvalid : b.valid = true := by
    rcases hb with ⟨hf, rfl, -⟩ | ⟨-, -, rfl, -⟩
    · exact (findSlot_spec hf).2.1
    · rfl
  rw [hc]
  rcases c.slot_set_cases (c.counter + 1) (c.decompose a).row k r i b with h | h
  · rw [h, hvalid]
  · rw [h, hv]

theorem Hierarchy.Rel.refl {R : Cache → Cache → Prop} (hR : ∀ c, R c c) (h : Hierarchy) : h.Rel R h := by
  cases h with
  | none => trivial
  | l1 c1 => exact hR c1
  | l1l2 c1 c2 => exact ⟨hR c1, hR c2⟩

/-- A load and a store only make levels grow. -/
theorem Hierarchy.Answers.grows {h : Hierarchy} {pc a : Addr} {r : HierResult} (ha : h.Answers pc a r) :
    Hierarchy.Rel Cache.Grows h r.hier := by
  have hfill : ∀ (c : Cache) (v : Word), c.Grows ((c.access a 0#16 false).cache.access a v true).cache :=
    fun c v => (c.grows_access a 0#16 false).trans (Cache.grows_access _ a v true)
  obtain ⟨m, rfl | rfl⟩ := ha
  · cases h with
    | none => trivial
    | l1 c1 =>
      cases hd : (c1.access a 0#16 false).data with
      | some d => rw [load_l1_hit pc m hd]; exact c1.grows_access a _ _
      | none => rw [load_l1_miss pc m hd]; exact hfill c1 m
    | l1l2 c1 c2 =>
      cases hd : (c1.access a 0#16 false).data with
      | some d => rw [load_l1l2_hit pc m hd]; exact ⟨c1.grows_access a _ _, .refl c2⟩
      | none =>
        cases hd2 : (c2.access a 0#16 false).data with
        | some d => rw [load_l1l2_hit_l2 pc m hd hd2]; exact ⟨hfill c1 d, c2.grows_access a _ _⟩
        | none => rw [load_l1l2_miss pc m hd hd2]; exact ⟨hfill c1 m, hfill c2 m⟩
  · cases h with
    | none => trivial
    | l1 c1 => exact c1.grows_access a m true
    | l1l2 c1 c2 => exact ⟨c1.grows_access a m true, c2.grows_access a m true⟩

/-- Settles O50. -/
theorem validSlotsStayValid : Obligations.ValidSlotsStayValid := by
  intro s t hstep
  obtain ⟨hhier, -⟩ | ⟨-, a, r, hr, hhier, -⟩ := step_caches hstep
  · rw [hhier]
    exact Hierarchy.Rel.refl Cache.Grows.refl s.hier
  · rw [hhier]
    exact hr.grows

end Sys2Proof.Machine

end ValidBits

section LoadsAndStores

namespace Sys2Proof.Machine

/-- A register write keeps every other register (R21). -/
theorem State.writeReg_keepsRegistersBut (s : State) (d : Reg) (v : Word) : KeepsRegistersBut d s (s.writeReg d v) :=
  ⟨fun r hr => s.readReg_writeReg_ne d r v hr, State.readReg_zero _⟩

/-- Settles O33: after the hierarchy's load only the destination is written and the pc advanced. -/
theorem lwResult : Obligations.LwResult := by
  intro d a imm7 s
  refine ⟨_, rfl, fun hd => ?_, rfl, rfl, State.writeReg_keepsRegistersBut _ d _, nextPc_toNat s.pc, fun _ => rfl,
    rfl, rfl⟩
  rw [State.readReg_retire, State.readReg_writeReg_self _ d _ hd]
  rfl

/-- Settles O34. -/
theorem swResult : Obligations.SwResult := by
  intro src a imm7 s hwf
  obtain ⟨t, ht⟩ := exec_completes (.sw src a imm7) s
  have hread := exec_sw_readMem hwf ht
  have hself : t.readMem (effectiveAddress (s.readReg a) imm7) = s.readReg src := by rw [hread, if_pos rfl]
  refine ⟨t, ht, hself, fun hsrc => by rw [hself, hsrc, State.readReg_zero], fun b hb => by rw [hread, if_neg hb],
    fun u hmem hpc => ?_, ?_⟩
  · rw [State.fetch, hpc, State.readMem, hmem]
    exact hself
  · cases ht
    exact ⟨rfl, rfl, fun _ => rfl, nextPc_toNat s.pc, rfl, rfl⟩

/-- Settles O36: the pc after the `sw` is the address it stored to. -/
theorem storeVisibleToNextFetch : Obligations.StoreVisibleToNextFetch := by
  intro s src a imm7 hwf hrun hdec haddr
  obtain ⟨t, ht⟩ := exec_completes (.sw src a imm7) s
  have hpc : t.pc = nextPc s.pc := by cases ht; rfl
  have hfetch : t.fetch = s.readReg src := by
    rw [State.fetch, hpc, exec_sw_readMem hwf ht, if_pos haddr.symm]
  exact ⟨t, by rw [step_of_ok hrun hdec, ht], hfetch,
    by rw [State.decodeFetched, hfetch, (exec_effect ht).params]⟩

/-- Settles O51. -/
theorem onlyLoadsAndStoresReachCaches : Obligations.OnlyLoadsAndStoresReachCaches := by
  refine ⟨fun i s t h hi => ?_, fun _ _ _ => rfl⟩
  obtain hkeep | ⟨hreach, -⟩ := (exec_effect h).caches
  · exact hkeep
  · rw [hi] at hreach
    cases hreach

/-- A load of the address just stored answers the stored value, with no event or with one L1 hit (R84). -/
theorem Hierarchy.load_after_store {h : Hierarchy} (hwf : h.All Cache.Wf) (pc pc' a : Addr) (v : Word) :
    ((h.store pc a v).hier.load pc' a v).value = v ∧
    (h = .none → (h.store pc a v).events = [] ∧ ((h.store pc a v).hier.load pc' a v).events = []) ∧
    (h ≠ .none → ∃ row, ((h.store pc a v).hier.load pc' a v).events = [cacheEvent pc' a .l1 .hit row]) := by
  cases h with
  | none => simp
  | l1 c1 =>
    rw [store_l1, load_l1_hit pc' v (Cache.Wf.read_after_write hwf a v)]
    simp
  | l1l2 c1 c2 =>
    rw [store_l1l2, load_l1l2_hit pc' v (hwf.1.read_after_write a v)]
    simp

/-- Settles O37: either source of the loaded value is the stored value. -/
theorem loadAfterStoreReturnsIt : Obligations.LoadAfterStoreReturnsIt := by
  rintro s src a d b imm7 imm7' ⟨hmem, -, hlevels, -⟩ hd haddr
  obtain ⟨t, ht⟩ := exec_completes (.sw src a imm7) s
  have hread : t.readMem (effectiveAddress (s.readReg a) imm7) = s.readReg src := by
    rw [exec_sw_readMem hmem ht, if_pos rfl]
  have hbase : t.readReg b = s.readReg b := (exec_effect ht).readReg (by simp [destination])
  have hhier : t.hier = (s.hier.store s.pc (effectiveAddress (s.readReg a) imm7) (s.readReg src)).hier := by
    cases ht; rfl
  have hevents : t.events =
      s.events ++ (s.hier.store s.pc (effectiveAddress (s.readReg a) imm7) (s.readReg src)).events := by
    cases ht; rfl
  obtain ⟨u, hu, hval, -, hue, -, -, hum, -⟩ := lwResult d b imm7' t
  simp only [hbase, haddr, hread, hhier] at hval hue
  obtain ⟨hvalue, hnone, hcached⟩ :=
    Hierarchy.load_after_store hlevels s.pc t.pc (effectiveAddress (s.readReg a) imm7) (s.readReg src)
  refine ⟨t, u, ht, hu, ?_, (hum _).trans hread, fun hn => ?_, fun hn => ?_⟩
  · rw [hval hd, hvalue]
    cases t.params.loadValueSource <;> rfl
  · rw [hue, hevents, (hnone hn).1, (hnone hn).2]
    simp
  · obtain ⟨row, hrow⟩ := hcached hn
    exact ⟨row, by rw [hue, hrow]⟩

end Sys2Proof.Machine

end LoadsAndStores

section TransparencyKept

namespace Sys2Proof.Machine

/-- A level that mirrors memory still does after one slot of the row of `a` and one memory word changed, when that slot
holds the new word of `a` under the tag of `a`, and the words of the other valid slots are as before (R80). -/
theorem Cache.Mirrors.of_sameSlotsBut {c c' : Cache} {m m' : Memory} {a : Addr} {i : Nat} (hm : c.Mirrors m)
    (hs : c.Shape) (hgeom : c'.geom = c.geom) (hsame : SameSlotsBut (c.decompose a).row i c c')
    (htag : (c'.slot (c.decompose a).row i).tag = (c.decompose a).tag)
    (hdata : (c'.slot (c.decompose a).row i).data = m'.read a.toNat)
    (hmem : ∀ r j, ¬ (r = (c.decompose a).row ∧ j = i) → (c.slot r j).valid = true →
      m'.read ((c.slot r j).tag * c.geom.numRows + r) = m.read ((c.slot r j).tag * c.geom.numRows + r)) :
    c'.Mirrors m' := by
  obtain ⟨hblock, hslots⟩ := hm
  refine ⟨by rw [hgeom, hblock], fun r j hv => ?_⟩
  rw [hgeom]
  by_cases hj : r = (c.decompose a).row ∧ j = i
  · obtain ⟨rfl, rfl⟩ := hj
    rw [htag, hs.address_eq hblock, hdata]
  · rw [hsame r j hj] at hv ⊢
    rw [hmem r j hj hv, hslots r j hv]

/-- With blocks of one word, a slot of a level's row stands for the address `a` only with the row and the tag of `a`
(R52). -/
theorem Cache.Shape.eq_decompose_of_address {c : Cache} (h : c.Shape) (hb : c.geom.blocksize = 1) {a : Addr}
    {tag r : Nat} (hr : r < c.rows.length) (he : tag * c.geom.numRows + r = a.toNat) :
    r = (c.decompose a).row ∧ tag = (c.decompose a).tag := by
  have hrow := h.row_lt a
  rw [h.2.1] at hr hrow
  rw [← h.address_eq hb a] at he
  have hreq : r = (c.decompose a).row := by
    simpa [Nat.mod_eq_of_lt hr, Nat.mod_eq_of_lt hrow] using congrArg (· % c.geom.numRows) he
  rw [hreq] at he
  exact ⟨hreq, Nat.eq_of_mul_eq_mul_right (geometry_valid_pos h.1).2.2 (Nat.add_right_cancel he)⟩

/-- A write access keeps a level the mirror of memory, the word written there too (R75, R80). -/
theorem Cache.Mirrors.write {c : Cache} {m : Memory} (hm : c.Mirrors m) (hwf : c.Wf) (hmem : m.wf) (a : Addr)
    (v : Word) : (c.access a v true).cache.Mirrors (m.write a.toNat v) := by
  obtain ⟨hs, -, hunique, -⟩ := hwf
  obtain ⟨i, hr⟩ := hs.write_restamps a v
  refine hm.of_sameSlotsBut hs hr.geom hr.sameSlotsBut (by rw [hr.slot_self])
    (by rw [hr.slot_self, Memory.read_write hmem, if_pos rfl]) fun r j hj hv => ?_
  rw [Memory.read_write hmem, if_neg]
  intro he
  obtain ⟨rfl, ht⟩ := hs.eq_decompose_of_address hm.1 (hs.valid_lt hv).1 he.symm
  exact hr.tag_fresh hunique (fun hji => hj ⟨rfl, hji⟩) hv ht

/-- A read that hits keeps its level the mirror of memory (R58, R80). -/
theorem Cache.Mirrors.read_hit_kept {c : Cache} {m : Memory} (hm : c.Mirrors m) (hs : c.Shape) {a : Addr} {d : Word}
    (hd : (c.access a 0#16 false).data = some d) : (c.access a 0#16 false).cache.Mirrors m := by
  obtain ⟨i, hf⟩ : ∃ i, findSlot (c.row (c.decompose a).row) (c.decompose a).tag = some i := by
    rw [← Option.isSome_iff_exists, ← c.access_data_isSome a 0#16 false, hd]
    rfl
  have hr := hs.hit_restamps hf 0#16 false
  have hdata : (c.slot (c.decompose a).row i).data = m.read a.toNat := by
    rw [← hm.read_hit hs hd]
    rw [c.access_hit a 0#16 false hf] at hd
    exact Option.some.inj hd
  exact hm.of_sameSlotsBut hs hr.geom hr.sameSlotsBut (by rw [hr.slot_self, hr.tag])
    (by rw [hr.slot_self]; exact hdata) fun _ _ _ _ => rfl

/-- A read that misses, with the fill by the memory word, keeps its level the mirror of memory (R80, R82). -/
theorem Cache.Mirrors.read_miss_kept {c : Cache} {m : Memory} (hm : c.Mirrors m) (hs : c.Shape) {a : Addr}
    (hd : (c.access a 0#16 false).data = none) :
    ((c.access a 0#16 false).cache.access a (m.read a.toNat) true).cache.Mirrors m := by
  obtain ⟨-, i, hslot, hsame⟩ := hs.fill_after_miss (Cache.lacks_of_access_data hd) (m.read a.toNat)
  exact hm.of_sameSlotsBut hs (by simp) hsame (by rw [hslot]) (by rw [hslot]) fun _ _ _ _ => rfl

/-- A load keeps every level the mirror of memory: what it fills is the memory word, from memory or from L2 (R80). -/
theorem Hierarchy.load_keeps_mirrors {h : Hierarchy} {m : Memory} (hall : h.All fun c => c.Shape ∧ c.Mirrors m)
    (pc a : Addr) : (h.load pc a (m.read a.toNat)).hier.All fun c => c.Mirrors m := by
  cases h with
  | none => trivial
  | l1 c1 =>
    obtain ⟨hs, hm⟩ := hall
    cases hd : (c1.access a 0#16 false).data with
    | some d => rw [load_l1_hit pc _ hd]; exact hm.read_hit_kept hs hd
    | none => rw [load_l1_miss pc _ hd]; exact hm.read_miss_kept hs hd
  | l1l2 c1 c2 =>
    obtain ⟨⟨hs, hm⟩, hs2, hm2⟩ := hall
    cases hd : (c1.access a 0#16 false).data with
    | some d => rw [load_l1l2_hit pc _ hd]; exact ⟨hm.read_hit_kept hs hd, hm2⟩
    | none =>
      cases hd2 : (c2.access a 0#16 false).data with
      | some d =>
        rw [load_l1l2_hit_l2 pc _ hd hd2, hm2.read_hit hs2 hd2]
        exact ⟨hm.read_miss_kept hs hd, hm2.read_hit_kept hs2 hd2⟩
      | none =>
        rw [load_l1l2_miss pc _ hd hd2]
        exact ⟨hm.read_miss_kept hs hd, hm2.read_miss_kept hs2 hd2⟩

/-- A store keeps every level the mirror of memory as it is after the memory write (R75, R80). -/
theorem Hierarchy.store_keeps_mirrors {h : Hierarchy} {m : Memory} (hmem : m.wf)
    (hall : h.All fun c => c.Wf ∧ c.Mirrors m) (pc a : Addr) (v : Word) :
    (h.store pc a v).hier.All fun c => c.Mirrors (m.write a.toNat v) := by
  cases h with
  | none => trivial
  | l1 c1 => exact hall.2.write hall.1 hmem a v
  | l1l2 c1 c2 => exact ⟨hall.1.2.write hall.1.1 hmem a v, hall.2.2.write hall.2.1 hmem a v⟩

/-- An instruction keeps every level the mirror of memory: only a `lw` or a `sw` touches either (R80, R87, R88). -/
theorem Effect.keeps_mirrors {i : Instr} {s t : State} (h : Effect s i t) (hs : s.Transparent) :
    t.hier.All fun c => c.Mirrors t.mem := by
  obtain ⟨⟨hmem, -, hwf, -⟩, hmirrors⟩ := hs
  cases h
  case load d a imm7 ea v address =>
    exact Hierarchy.load_keeps_mirrors ((hwf.mono fun c hc => hc.1).and hmirrors) s.pc ea
  case store src a imm7 ea address =>
    exact Hierarchy.store_keeps_mirrors hmem (hwf.and hmirrors) s.pc ea _
  all_goals exact hmirrors

/-- Settles O59: the invariant is kept, and the mirror by the step's instruction; DecodeError touches neither caches
nor memory. -/
theorem stepKeepsTransparency : Obligations.StepKeepsTransparency := by
  intro s t hs hstep
  refine ⟨stepKeepsInvariant s t hs.1 hstep, ?_⟩
  obtain ⟨i, -, heff⟩ | rfl := step_effect hstep
  · exact heff.keeps_mirrors hs
  · exact hs.2

end Sys2Proof.Machine

end TransparencyKept

/-! PROOFS. The statements of spec/30_encoding.md: the fields of a word as numbers, the words of the encoder, the arms of
the decoder, and the HALT convention. -/

section FieldsOfAWord

namespace Sys2Proof

/-- A run of bits of a word as a number (R101). -/
theorem extractLsb'_toNat_eq_div_mod (start len : Nat) (w : Word) :
    (w.extractLsb' start len).toNat = w.toNat / 2 ^ start % 2 ^ len := by
  rw [BitVec.extractLsb'_toNat, Nat.shiftRight_eq_div_pow]

variable (w : Word)

/-! The fields of R105 as numbers at their bit positions. -/

theorem opcodeOf_toNat : (opcodeOf w).toNat = w.toNat / 8192 := by
  have hfield : (opcodeOf w).toNat = w.toNat / 8192 % 8 := extractLsb'_toNat_eq_div_mod 13 3 w
  have := w.isLt
  omega

theorem regAOf_toNat : (regAOf w).toNat = w.toNat / 1024 % 8 := extractLsb'_toNat_eq_div_mod 10 3 w
theorem regBOf_toNat : (regBOf w).toNat = w.toNat / 128 % 8 := extractLsb'_toNat_eq_div_mod 7 3 w
theorem regDstOf_toNat : (regDstOf w).toNat = w.toNat / 16 % 8 := extractLsb'_toNat_eq_div_mod 4 3 w
theorem funcOf_toNat : (funcOf w).toNat = w.toNat % 16 := BitVec.extractLsb'_toNat 0 4 w
theorem imm7Of_toNat : (imm7Of w).toNat = w.toNat % 128 := BitVec.extractLsb'_toNat 0 7 w
theorem imm13Of_toNat : (imm13Of w).toNat = w.toNat % 8192 := BitVec.extractLsb'_toNat 0 13 w

theorem jrUnusedOf_toNat : (jrUnusedOf w).toNat = w.toNat / 16 % 64 := extractLsb'_toNat_eq_div_mod 4 6 w

theorem jrUnusedOf_eq_zero_iff : jrUnusedOf w = 0 ↔ w.toNat / 16 % 64 = 0 := by
  rw [← jrUnusedOf_toNat, ← BitVec.toNat_inj, BitVec.ofNat_eq_ofNat, BitVec.toNat_zero]

end Sys2Proof

end FieldsOfAWord

section EncodedFields

namespace Sys2Proof

/-- Two bit strings side by side as a number. -/
theorem append_toNat_eq_mul_add {m n : Nat} (x : BitVec m) (y : BitVec n) :
    (x ++ y).toNat = x.toNat * 2 ^ n + y.toNat := by
  rw [BitVec.toNat_append, ← Nat.shiftLeft_add_eq_or_of_lt y.isLt, Nat.shiftLeft_eq]

/-! Each shape's word as a number (R102 to R104). -/

theorem encodeRRR_toNat (a b d : Reg) (f : BitVec 4) :
    (encodeRRR a b d f).toNat = a.toNat * 1024 + b.toNat * 128 + d.toNat * 16 + f.toNat := by
  simp only [encodeRRR, append_toNat_eq_mul_add, BitVec.toNat_ofNat]
  omega

theorem encodeRRI_toNat (op : BitVec 3) (a b : Reg) (imm7 : BitVec 7) :
    (encodeRRI op a b imm7).toNat = op.toNat * 8192 + a.toNat * 1024 + b.toNat * 128 + imm7.toNat := by
  simp only [encodeRRI, append_toNat_eq_mul_add]
  omega

theorem encodeI13_toNat (op : BitVec 3) (imm13 : Addr) :
    (encodeI13 op imm13).toNat = op.toNat * 8192 + imm13.toNat :=
  append_toNat_eq_mul_add op imm13

section shapeRRR

variable (a b d : Reg) (f : BitVec 4)

@[simp] theorem opcodeOf_encodeRRR : opcodeOf (encodeRRR a b d f) = 0#3 := by
  rw [← BitVec.toNat_inj, opcodeOf_toNat, encodeRRR_toNat, BitVec.toNat_ofNat]
  omega

@[simp] theorem regAOf_encodeRRR : regAOf (encodeRRR a b d f) = a := by
  rw [← BitVec.toNat_inj, regAOf_toNat, encodeRRR_toNat]
  omega

@[simp] theorem regBOf_encodeRRR : regBOf (encodeRRR a b d f) = b := by
  rw [← BitVec.toNat_inj, regBOf_toNat, encodeRRR_toNat]
  omega

@[simp] theorem regDstOf_encodeRRR : regDstOf (encodeRRR a b d f) = d := by
  rw [← BitVec.toNat_inj, regDstOf_toNat, encodeRRR_toNat]
  omega

@[simp] theorem funcOf_encodeRRR : funcOf (encodeRRR a b d f) = f := by
  rw [← BitVec.toNat_inj, funcOf_toNat, encodeRRR_toNat]
  omega

/-- The encoder writes zeros in the bits `jr` does not use (R111, R114). -/
@[simp] theorem jrUnusedOf_encodeRRR_zero : jrUnusedOf (encodeRRR a 0#3 0#3 f) = 0 := by
  rw [jrUnusedOf_eq_zero_iff, encodeRRR_toNat, BitVec.toNat_ofNat]
  omega

end shapeRRR

section shapeRRI

variable (op : BitVec 3) (a b : Reg) (imm7 : BitVec 7)

@[simp] theorem opcodeOf_encodeRRI : opcodeOf (encodeRRI op a b imm7) = op := by
  rw [← BitVec.toNat_inj, opcodeOf_toNat, encodeRRI_toNat]
  omega

@[simp] theorem regAOf_encodeRRI : regAOf (encodeRRI op a b imm7) = a := by
  rw [← BitVec.toNat_inj, regAOf_toNat, encodeRRI_toNat]
  omega

@[simp] theorem regBOf_encodeRRI : regBOf (encodeRRI op a b imm7) = b := by
  rw [← BitVec.toNat_inj, regBOf_toNat, encodeRRI_toNat]
  omega

@[simp] theorem imm7Of_encodeRRI : imm7Of (encodeRRI op a b imm7) = imm7 := by
  rw [← BitVec.toNat_inj, imm7Of_toNat, encodeRRI_toNat]
  omega

end shapeRRI

section shapeI13

variable (op : BitVec 3) (imm13 : Addr)

@[simp] theorem opcodeOf_encodeI13 : opcodeOf (encodeI13 op imm13) = op := by
  rw [← BitVec.toNat_inj, opcodeOf_toNat, encodeI13_toNat]
  omega

@[simp] theorem imm13Of_encodeI13 : imm13Of (encodeI13 op imm13) = imm13 := by
  rw [← BitVec.toNat_inj, imm13Of_toNat, encodeI13_toNat]
  omega

end shapeI13

end Sys2Proof

end EncodedFields

section DecodeOfEncode

namespace Sys2Proof

/-- A word of shape RRR goes to the nested sub-selector (R109). -/
theorem decode_encodeRRR (m : JrUnusedBits) (a b d : Reg) (f : BitVec 4) :
    decode m (encodeRRR a b d f) = decodeRRR m (encodeRRR a b d f) := by
  simp [decode]

/-- Settles O2: the decoder's switches see the opcode and the function code the encoder wrote, and each field is read
back from the shape it was written in. -/
theorem decodeEncodeRoundTrip : Obligations.DecodeEncodeRoundTrip := by
  intro m i
  cases i
  case add | sub | or | and | slt | jr =>
    rw [encode, decode_encodeRRR]
    simp [decodeRRR]
  case addi | lw | sw | jeq | slti | j | jal => simp [encode, decode]

/-- Settles O1. -/
theorem writtenWordsDecode : Obligations.WrittenWordsDecode := by
  unfold Obligations.WrittenWordsDecode
  decide

end Sys2Proof

end DecodeOfEncode

section DecoderArms

namespace Sys2Proof

/-- What the decoder answers to a word, one case per arm of R109 with the condition of the arm on the word's number. -/
inductive Decodes (m : JrUnusedBits) (w : Word) : Except DecodeRefusal Instr → Prop
  | add (op : w.toNat / 8192 = 0) (func : w.toNat % 16 = 0) :
      Decodes m w (.ok (.add (regDstOf w) (regAOf w) (regBOf w)))
  | sub (op : w.toNat / 8192 = 0) (func : w.toNat % 16 = 1) :
      Decodes m w (.ok (.sub (regDstOf w) (regAOf w) (regBOf w)))
  | or (op : w.toNat / 8192 = 0) (func : w.toNat % 16 = 2) :
      Decodes m w (.ok (.or (regDstOf w) (regAOf w) (regBOf w)))
  | and (op : w.toNat / 8192 = 0) (func : w.toNat % 16 = 3) :
      Decodes m w (.ok (.and (regDstOf w) (regAOf w) (regBOf w)))
  | slt (op : w.toNat / 8192 = 0) (func : w.toNat % 16 = 4) :
      Decodes m w (.ok (.slt (regDstOf w) (regAOf w) (regBOf w)))
  | jr (op : w.toNat / 8192 = 0) (func : w.toNat % 16 = 8) (legal : m = .ignore ∨ w.toNat / 16 % 64 = 0) :
      Decodes m w (.ok (.jr (regAOf w)))
  | jrUnusedBitsSet (op : w.toNat / 8192 = 0) (func : w.toNat % 16 = 8) (strict : m = .decodeError)
      (unused : w.toNat / 16 % 64 ≠ 0) : Decodes m w (.error .jrUnusedBitsSet)
  | unassignedFunc (op : w.toNat / 8192 = 0) (func : 5 ≤ w.toNat % 16 ∧ w.toNat % 16 ≠ 8) :
      Decodes m w (.error .unassignedFunc)
  | addi (op : w.toNat / 8192 = 1) : Decodes m w (.ok (.addi (regBOf w) (regAOf w) (imm7Of w)))
  | j (op : w.toNat / 8192 = 2) : Decodes m w (.ok (.j (imm13Of w)))
  | jal (op : w.toNat / 8192 = 3) : Decodes m w (.ok (.jal (imm13Of w)))
  | lw (op : w.toNat / 8192 = 4) : Decodes m w (.ok (.lw (regBOf w) (regAOf w) (imm7Of w)))
  | sw (op : w.toNat / 8192 = 5) : Decodes m w (.ok (.sw (regBOf w) (regAOf w) (imm7Of w)))
  | jeq (op : w.toNat / 8192 = 6) : Decodes m w (.ok (.jeq (regAOf w) (regBOf w) (imm7Of w)))
  | slti (op : w.toNat / 8192 = 7) : Decodes m w (.ok (.slti (regBOf w) (regAOf w) (imm7Of w)))

variable {m : JrUnusedBits} {w : Word}

/-- A `jr` word is legal exactly when the decoder's check of its unused bits does not refuse it (R111). -/
theorem jr_legal_iff : (m = .ignore ∨ w.toNat / 16 % 64 = 0) ↔ ¬(m = .decodeError ∧ jrUnusedOf w ≠ 0) := by
  rw [ne_eq, jrUnusedOf_eq_zero_iff]
  cases m <;> simp

/-- The nested sub-selector answers by the arms of opcode 000. -/
theorem decodeRRR_decodes (m : JrUnusedBits) (op : w.toNat / 8192 = 0) : Decodes m w (decodeRRR m w) := by
  simp only [decodeRRR, funcOf_toNat]
  split
  case h_1 func => exact .add op func
  case h_2 func => exact .sub op func
  case h_3 func => exact .or op func
  case h_4 func => exact .and op func
  case h_5 func => exact .slt op func
  case h_6 func =>
    split
    case isTrue hset =>
      obtain ⟨strict, unused⟩ := hset
      exact .jrUnusedBitsSet op func strict (mt (jrUnusedOf_eq_zero_iff w).mpr unused)
    case isFalse hlegal => exact .jr op func (jr_legal_iff.mpr hlegal)
  case h_7 => exact .unassignedFunc op (by grind)

/-- The decoder answers by its arms. -/
theorem decode_decodes (m : JrUnusedBits) (w : Word) : Decodes m w (decode m w) := by
  simp only [decode, opcodeOf_toNat]
  split
  case h_1 op => exact decodeRRR_decodes m op
  case h_2 op => exact .addi op
  case h_3 op => exact .j op
  case h_4 op => exact .jal op
  case h_5 op => exact .lw op
  case h_6 op => exact .sw op
  case h_7 op => exact .jeq op
  case h_8 =>
    have := w.isLt
    exact .slti (by grind)

/-- Under the condition of an arm the decoder answers with that arm. -/
theorem Decodes.decode_eq {r : Except DecodeRefusal Instr} (h : Decodes m w r) : decode m w = r := by
  cases h
  case addi op | j op | jal op | lw op | sw op | jeq op | slti op => simp [decode, opcodeOf_toNat, op]
  case add op func | sub op func | or op func | and op func | slt op func =>
    simp [decode, decodeRRR, opcodeOf_toNat, funcOf_toNat, op, func]
  case jr op func legal =>
    simp only [decode, decodeRRR, opcodeOf_toNat, funcOf_toNat, op, func, if_neg (jr_legal_iff.mp legal)]
  case jrUnusedBitsSet op func strict unused =>
    have hset : m = .decodeError ∧ jrUnusedOf w ≠ 0 := ⟨strict, mt (jrUnusedOf_eq_zero_iff w).mp unused⟩
    simp only [decode, decodeRRR, opcodeOf_toNat, funcOf_toNat, op, func, if_pos hset]
  case unassignedFunc op func =>
    simp only [decode, decodeRRR, opcodeOf_toNat, funcOf_toNat, op]
    split
    case h_7 => rfl
    all_goals omega

/-- The arms say exactly what the decoder answers. -/
theorem decode_eq_iff {r : Except DecodeRefusal Instr} : decode m w = r ↔ Decodes m w r :=
  ⟨fun h => h ▸ decode_decodes m w, Decodes.decode_eq⟩

/-- Settles O4: its clauses are the legal arms, once each number is named as the field it is. -/
theorem decoderReadsEveryField : Obligations.DecoderReadsEveryField := by
  intro m w
  simp only [← regAOf_toNat, ← regBOf_toNat, ← regDstOf_toNat, ← imm7Of_toNat, ← imm13Of_toNat, BitVec.ofNat_toNat,
    BitVec.setWidth_eq, decode_eq_iff]
  exact ⟨.add, .sub, .or, .and, .slt, .jr, .addi, .j, .jal, .lw, .sw, .jeq, .slti⟩

/-- Settles O5: the decoder has two refusing arms. -/
theorem illegalWordsExactly : Obligations.IllegalWordsExactly := by
  intro m w
  simp only [decode_eq_iff]
  constructor
  · rintro ⟨e, h⟩
    cases h
    case jrUnusedBitsSet op func strict unused => exact ⟨op, .inr ⟨func, strict, unused⟩⟩
    case unassignedFunc op func => exact ⟨op, .inl func⟩
  · rintro ⟨op, func | ⟨func, strict, unused⟩⟩
    · exact ⟨_, .unassignedFunc op func⟩
    · exact ⟨_, .jrUnusedBitsSet op func strict unused⟩

end Sys2Proof

end DecoderArms

section EncodeOfDecode

namespace Sys2Proof

variable {w : Word}

/-! A word is put together again from its opcode and the fields of its shape (R102 to R105). -/

theorem encodeRRR_of_fields {f : BitVec 4} (op : w.toNat / 8192 = 0) (func : w.toNat % 16 = f.toNat) :
    encodeRRR (regAOf w) (regBOf w) (regDstOf w) f = w := by
  rw [← BitVec.toNat_inj, encodeRRR_toNat, regAOf_toNat, regBOf_toNat, regDstOf_toNat]
  omega

theorem encodeRRI_of_fields {opcode : BitVec 3} (op : w.toNat / 8192 = opcode.toNat) :
    encodeRRI opcode (regAOf w) (regBOf w) (imm7Of w) = w := by
  rw [← BitVec.toNat_inj, encodeRRI_toNat, regAOf_toNat, regBOf_toNat, imm7Of_toNat]
  omega

theorem encodeI13_of_fields {opcode : BitVec 3} (op : w.toNat / 8192 = opcode.toNat) :
    encodeI13 opcode (imm13Of w) = w := by
  rw [← BitVec.toNat_inj, encodeI13_toNat, imm13Of_toNat]
  omega

/-- The mask of bits [9:4] clears regB and regDst and keeps the other fields of a word of opcode 000 (R111). -/
theorem encodeRRR_clear_unused (a b d : Reg) (f : BitVec 4) :
    encodeRRR a b d f &&& 0xFC0F#16 = encodeRRR a 0#3 0#3 f := by
  apply BitVec.eq_of_getLsbD_eq
  intro i hi
  simp only [encodeRRR, BitVec.getLsbD_and, BitVec.getLsbD_append]
  interval_cases i <;> simp

/-- Settles O3: each arm of the decoder reads the fields its shape is put together from; a `jr` loses the two it does
not read. -/
theorem encodeDecodeRoundTrip : Obligations.EncodeDecodeRoundTrip := by
  intro m w i h
  cases decode_eq_iff.mp h
  case jr op func legal =>
    rw [if_pos ⟨op, func⟩, encode, ← encodeRRR_clear_unused _ (regBOf w) (regDstOf w),
      encodeRRR_of_fields (f := 0b1000#4) op func]
  case add op func | sub op func | or op func | and op func | slt op func =>
    rw [if_neg (by omega)]
    exact encodeRRR_of_fields op func
  case addi op | lw op | sw op | jeq op | slti op =>
    rw [if_neg (by omega)]
    exact encodeRRI_of_fields op
  case j op | jal op =>
    rw [if_neg (by omega)]
    exact encodeI13_of_fields op

end Sys2Proof

end EncodeOfDecode

section HaltConvention

namespace Sys2Proof.Machine

/-- A halted core has no step (R152). -/
theorem step_of_halted {s : State} (h : s.status = .halted) : step s = .fault .coreHalted := by
  simp [step, h]

/-- Every instruction other than `j` completes and keeps the status (R153, R157). -/
theorem exec_keeps_status {i : Instr} (hi : ∀ imm13, i ≠ .j imm13) (s : State) :
    ∃ t, exec i s = .next t ∧ t.status = s.status := by
  obtain ⟨t, ht⟩ := exec_completes i s
  exact ⟨t, ht, (exec_effect ht).status.resolve_right fun ⟨hj, _⟩ => hi s.pc hj⟩

/-- A running core's step ends in Halted exactly at a `j` to its own address (R151). -/
theorem step_halts_iff {s : State} (hrun : s.status = .running) :
    (∃ t, step s = .next t ∧ t.status = .halted) ↔ s.decodeFetched = .ok (.j s.pc) := by
  obtain ⟨t, ht⟩ := step_of_running hrun
  rw [← (step_status_iff hrun ht).1]
  simp [ht]

/-- Settles O29. -/
theorem onlyJumpToSelfHalts : Obligations.OnlyJumpToSelfHalts :=
  ⟨fun _ => step_halts_iff, fun _ s hi => exec_keeps_status hi s, fun _ => step_of_halted⟩

end Sys2Proof.Machine

end HaltConvention

section ArithmeticAndLogic

namespace Sys2Proof.Machine

/-! Writing a result and falling through: the part every instruction of 40_alu.md shares (R135 to R137). -/

theorem State.retire_onlyRegister (s : State) (d : Reg) (v : Word) : OnlyRegister d s (s.retire d v) :=
  ⟨s.writeReg_keepsRegistersBut d v, nextPc_toNat s.pc, fun _ => rfl, ⟨rfl, rfl⟩, rfl, rfl⟩

theorem State.readReg_retire_self (s : State) {d : Reg} (v : Word) (hd : d ≠ 0#3) : (s.retire d v).readReg d = v :=
  s.readReg_writeReg_self d v hd

/-- An instruction of the family writes one word and falls through; the word is a function `f` of the state that does
not depend on memory, the caches or the log (R135). -/
theorem exec_alu {i : Instr} (hi : isAlu i = true) :
    ∃ (d : Reg) (f : State → Word), destination i = some d ∧ (∀ s, exec i s = .next (s.retire d (f s))) ∧
      ∀ (s : State) (mem : Memory) (hier : Hierarchy) (events : List CacheEvent),
        f { s with mem := mem, hier := hier, events := events } = f s := by
  cases i
  case jr | j | jal | lw | sw | jeq => cases hi
  all_goals exact ⟨_, _, rfl, fun _ => rfl, fun _ _ _ _ => rfl⟩

/-- Settles O15: what is written to register 0 is discarded. -/
theorem zeroDestinationOnlyAdvances : Obligations.ZeroDestinationOnlyAdvances := by
  intro i s hi hdest
  obtain ⟨d, f, hd, hexec, -⟩ := exec_alu hi
  obtain rfl : d = 0#3 := Option.some.inj (hd.symm.trans hdest)
  exact ⟨_, hexec s, fun _ => rfl, s.retire_onlyRegister _ _⟩

/-- Settles O16. -/
theorem aluIgnoresMemoryAndCaches : Obligations.AluIgnoresMemoryAndCaches := by
  intro i s mem hier events hi
  obtain ⟨d, f, -, hexec, hf⟩ := exec_alu hi
  refine ⟨_, hexec s, rfl, rfl, rfl, rfl, ?_⟩
  rw [hexec, hf]
  rfl

/-- Settles O17. -/
theorem addResult : Obligations.AddResult := by
  refine fun d a b s => ⟨_, rfl, s.retire_onlyRegister d _, fun hd => ?_⟩
  rw [s.readReg_retire_self _ hd]
  exact BitVec.toNat_add _ _

/-- The difference of two words is the Euclidean remainder of the difference of their numbers (R131). -/
theorem sub_toNat_eq_emod (x y : Word) : ((x - y).toNat : Int) = ((x.toNat : Int) - y.toNat) % 65536 := by
  rw [BitVec.toNat_sub]
  omega

/-- Settles O18. -/
theorem subResult : Obligations.SubResult := by
  refine fun d a b s => ⟨_, rfl, s.retire_onlyRegister d _, fun hd => ?_⟩
  rw [s.readReg_retire_self _ hd]
  exact sub_toNat_eq_emod _ _

/-- Settles O19. -/
theorem orResult : Obligations.OrResult := by
  refine fun d a b s => ⟨_, rfl, s.retire_onlyRegister d _, fun hd k _ => ?_⟩
  rw [s.readReg_retire_self _ hd]
  exact BitVec.getLsbD_or

/-- Settles O20. -/
theorem andResult : Obligations.AndResult := by
  refine fun d a b s => ⟨_, rfl, s.retire_onlyRegister d _, fun hd k _ => ?_⟩
  rw [s.readReg_retire_self _ hd]
  exact BitVec.getLsbD_and

/-- `wrap16` is the Euclidean remainder mod 65536 (R14; D8). -/
theorem wrap16_toNat (a : Int) : ((wrap16 a).toNat : Int) = a % 65536 := by
  rw [wrap16, BitVec.toNat_ofInt]
  omega

/-- Settles O22. -/
theorem addiResult : Obligations.AddiResult := by
  refine fun d a imm7 s => ⟨_, rfl, s.retire_onlyRegister d _, fun hd => ?_⟩
  rw [s.readReg_retire_self _ hd]
  exact wrap16_toNat _

end Sys2Proof.Machine

end ArithmeticAndLogic

section Compares

namespace Sys2Proof.Machine

/-- A comparison yields 1 where the proposition it decides holds, else 0 (R134, R140). -/
theorem boolToWord_toNat {c : Bool} {p : Prop} [Decidable p] (h : c = true ↔ p) :
    (boolToWord c).toNat = if p then 1 else 0 := by
  by_cases hp : p
  · rw [if_pos hp, h.mpr hp]; rfl
  · rw [if_neg hp, Bool.eq_false_iff.mpr fun hc => hp (h.mp hc)]; rfl

theorem lessThanUnsigned_iff (x y : Word) : lessThanUnsigned x y = true ↔ x.toNat < y.toNat :=
  decide_eq_true_iff

/-- Settles O21. -/
theorem sltResult : Obligations.SltResult := by
  refine fun d a b s => ⟨_, rfl, s.retire_onlyRegister d _, fun hd => ?_⟩
  rw [s.readReg_retire_self _ hd]
  exact boolToWord_toNat (lessThanUnsigned_iff _ _)

/-! `lessThanImm` under each SLTI_COMPARE, on the register's number (R141; D7). -/

theorem lessThanImm_widened_iff (r : Word) (imm : Int) : lessThanImm .widened r imm = true ↔ (r.toNat : Int) < imm :=
  decide_eq_true_iff

theorem lessThanImm_signed16_iff (r : Word) (imm : Int) :
    lessThanImm .signed16 r imm = true ↔
      (if 32768 ≤ (r.toNat : Int) then (r.toNat : Int) - 65536 else r.toNat) < imm := by
  have htwos : r.toInt = if 32768 ≤ (r.toNat : Int) then (r.toNat : Int) - 65536 else r.toNat := by
    rw [BitVec.toInt_eq_toNat_cond]
    omega
  rw [← htwos]
  exact decide_eq_true_iff

theorem lessThanImm_unsigned16_iff (r : Word) (imm : Int) :
    lessThanImm .unsigned16 r imm = true ↔ (r.toNat : Int) < imm % 65536 := by
  rw [← wrap16_toNat, Int.ofNat_lt]
  exact lessThanUnsigned_iff _ _

/-- Settles O23: one case per setting of SLTI_COMPARE. -/
theorem sltiResult : Obligations.SltiResult := by
  refine fun d a imm7 s => ⟨_, rfl, s.retire_onlyRegister d _, fun hd => ?_⟩
  rw [s.readReg_retire_self _ hd]
  cases s.params.sltiCompare
  case widened => exact boolToWord_toNat (lessThanImm_widened_iff _ _)
  case signed16 => exact boolToWord_toNat (lessThanImm_signed16_iff _ _)
  case unsigned16 => exact boolToWord_toNat (lessThanImm_unsigned16_iff _ _)

end Sys2Proof.Machine

end Compares

section ControlTransfer

namespace Sys2Proof.Machine

/-! `j` (R150 to R152): its two meanings are `exec_j_self`, HALT, and a plain jump. -/

/-- A `j` to another address only sets the pc (R150). -/
theorem exec_j_away {imm13 : Addr} {s : State} (away : imm13 ≠ s.pc) : exec (.j imm13) s = .next (s.setPc imm13) := by
  simp [exec, execJ, away]

/-- Setting the pc is all that a jump without a link does. -/
theorem State.setPc_onlyPc (s : State) (target : Addr) : OnlyPc s (s.setPc target) :=
  ⟨fun _ => rfl, fun _ => rfl, ⟨rfl, rfl⟩, rfl, rfl⟩

/-- Settles O25: a target at the pc is HALT, any other one a plain jump. -/
theorem jumpToSelfHalts : Obligations.JumpToSelfHalts := by
  intro imm13 s
  by_cases hself : imm13 = s.pc
  · subst hself
    have hstop : ∀ u, step s.halt ≠ .next u := fun u h => by cases (step_of_halted s.halt_status).symm.trans h
    exact ⟨s.halt, exec_j_self s, rfl, fun _ => rfl, fun _ => rfl, ⟨rfl, rfl⟩, rfl,
      fun _ => ⟨rfl, hstop⟩, fun away => absurd rfl away⟩
  · obtain ⟨hregs, hmem, hcaches, hstatus, hparams⟩ := s.setPc_onlyPc imm13
    exact ⟨s.setPc imm13, exec_j_away hself, rfl, hregs, hmem, hcaches, hparams,
      fun h => absurd h hself, fun _ => hstatus⟩

/-! `jal` (R155, R156) and `jr` (R158, R159). -/

/-- An address keeps its number as a register value (R155). -/
theorem addrToWord_toNat (a : Addr) : (addrToWord a).toNat = a.toNat :=
  BitVec.toNat_setWidth_of_le (by decide)

/-- The return address `jal` links, as a number (R155). -/
theorem returnAddress_toNat (pc : Addr) : (addrToWord (nextPc pc)).toNat = (pc.toNat + 1) % 8192 := by
  rw [addrToWord_toNat, nextPc_toNat]

/-- Settles O26: register 7 reads the link, and setting the pc afterwards touches nothing else. -/
theorem jalLinksAndJumps : Obligations.JalLinksAndJumps := by
  intro imm13 s
  have hlink : ((s.writeReg linkReg (addrToWord (nextPc s.pc))).setPc imm13).readReg 7#3 = addrToWord (nextPc s.pc) :=
    s.readReg_writeReg_self linkReg _ (by decide)
  refine ⟨_, rfl, ?_, fun hlast => ?_, rfl, s.writeReg_keepsRegistersBut linkReg _, fun _ => rfl, ⟨rfl, rfl⟩, rfl, rfl⟩
  · rw [hlink, returnAddress_toNat]
  · rw [hlink, hlast]
    rfl

/-- Settles O27: the target is the register's value mod 8192, and register 0 reads 0. -/
theorem jrWrapsItsTarget : Obligations.JrWrapsItsTarget := by
  refine fun a s => ⟨_, rfl, s.setPc_onlyPc _, registerTarget_toNat _, fun hzero => ?_⟩
  rw [hzero]
  rfl

/-! `jeq` (R162, R163): it sets the pc to one of two targets, whose corner cases are facts about addresses. -/

theorem exec_jeq_taken {a b : Reg} {s : State} (equal : s.readReg a = s.readReg b) (imm7 : BitVec 7) :
    exec (.jeq a b imm7) s = .next (s.setPc (branchTarget s.pc imm7)) := by
  simp [exec, execJeq, equal]

theorem exec_jeq_notTaken {a b : Reg} {s : State} (unequal : s.readReg a ≠ s.readReg b) (imm7 : BitVec 7) :
    exec (.jeq a b imm7) s = .next (s.setPc (nextPc s.pc)) := by
  simp [exec, execJeq, unequal, State.advance]

/-- Displacement -1 is the branch's own address (R163). -/
theorem branchTarget_negOne (pc : Addr) : branchTarget pc 0x7F#7 = pc := by
  have hsum := branchTarget_toNat pc 0x7F#7
  have hdisp : sext7 0x7F#7 = -1 := by decide
  have hpc := pc.isLt
  apply BitVec.eq_of_toNat_eq
  omega

/-- Displacement 0 is the fall-through (R163). -/
theorem branchTarget_zero (pc : Addr) : branchTarget pc 0#7 = nextPc pc :=
  congrArg wrap13 (Int.add_zero _)

/-- Settles O28: the branch taken and not taken, each clause by the fact about its target. -/
theorem jeqTargets : Obligations.JeqTargets := by
  intro a b imm7 s
  have hsame : a = b → s.readReg a = s.readReg b := congrArg s.readReg
  by_cases heq : s.readReg a = s.readReg b
  · refine ⟨_, exec_jeq_taken heq imm7, s.setPc_onlyPc _, fun hne => absurd heq hne,
      fun _ => branchTarget_toNat s.pc imm7, fun _ himm => ?selfJump, fun himm => ?zero,
      fun _ hpc himm => ?wrapDown, fun _ hpc himm => ?wrapUp, fun hne => absurd heq hne, hsame⟩
    case selfJump => rw [himm, State.setPc_pc, branchTarget_negOne]
    case zero => rw [himm, State.setPc_pc, branchTarget_zero, nextPc_toNat]
    case wrapDown => rw [himm, State.setPc_pc, hpc]; rfl
    case wrapUp => rw [himm, State.setPc_pc, hpc]; rfl
  · have hfall : FallsThrough s (s.setPc (nextPc s.pc)) := nextPc_toNat s.pc
    exact ⟨_, exec_jeq_notTaken heq imm7, s.setPc_onlyPc _, fun _ => hfall, fun h => absurd h heq,
      fun h => absurd h heq, fun _ => hfall, fun h => absurd h heq, fun h => absurd h heq,
      fun _ => hfall.wraps, hsame⟩

end Sys2Proof.Machine

end ControlTransfer

/-! PROOFS. The statements of spec/60_exceptions.md: DecodeError is the one exception, and no instruction raises it. -/

section Exceptions

namespace Sys2Proof.Machine

/-- An instruction that leaves a core Faulted found it so: the only status an effect sets is Halted (R205). -/
theorem Effect.status_of_faulted {s t : State} {i : Instr} {pc : Addr} {word : Word} (h : Effect s i t)
    (hfaulted : t.status = .faulted pc word) : s.status = .faulted pc word := by
  obtain hkeep | ⟨-, hhalted⟩ := h.status
  · exact hkeep.symm.trans hfaulted
  · cases hhalted.symm.trans hfaulted

/-- Settles O24. -/
theorem everyInstructionCompletes : Obligations.EveryInstructionCompletes := by
  intro i s
  obtain ⟨t, ht⟩ := exec_completes i s
  exact ⟨t, ht, fun _ _ => (exec_effect ht).status_of_faulted⟩

/-- A faulted core has no step (R203, R209). -/
theorem step_of_faulted {s : State} {pc : Addr} {word : Word} (h : s.status = .faulted pc word) :
    step s = .fault (.coreFaulted pc word) := by
  simp [step, h]

/-- Settles O55: the step is `raiseDecodeError`, which sets the status alone, and the core it leaves is faulted. -/
theorem decodeErrorStopsPrecisely : Obligations.DecodeErrorStopsPrecisely := by
  intro s e hrun herror
  have hstatus : (s.raiseDecodeError s.fetch).status = .faulted s.pc (s.readMem s.pc) := s.raiseDecodeError_status _
  exact ⟨_, step_of_error hrun herror, hstatus, s.raiseDecodeError_pc _, s.raiseDecodeError_params _,
    fun r => s.readReg_raiseDecodeError r _, fun a => s.readMem_raiseDecodeError a _,
    ⟨s.raiseDecodeError_hier _, s.raiseDecodeError_events _⟩, step_of_faulted hstatus⟩

end Sys2Proof.Machine

end Exceptions

/-! PROOFS. The statement of spec/70_reset_and_hazards.md: the step is fetch, decode and execute in a running core, and
there is none in any other (R231). -/

section FetchDecodeExecute

namespace Sys2Proof.Machine

/-- Only a running core has a step (R36, R231). -/
theorem no_step_of_not_running {s : State} (h : s.status ≠ .running) (t : State) : step s ≠ .next t := by
  intro hstep
  obtain ⟨hrun, -⟩ := step_cases hstep
  exact h hrun

/-- Settles O54: each clause is a fact about one outcome of the fetched word, or about an instruction by itself. -/
theorem stepRunsDecodedInstruction : Obligations.StepRunsDecodedInstruction := by
  intro s
  refine ⟨fun hrun i hdec => ?decoded, fun hrun e herror => ?illegal, ?halt, fun i t hexec hi => ?advances,
    no_step_of_not_running⟩
  case decoded => exact step_of_ok hrun hdec
  case illegal => exact step_of_error hrun herror
  case halt => exact exec_j_self s
  case advances => exact (exec_effect hexec).fallsThrough hi

end Sys2Proof.Machine

end FetchDecodeExecute
